-- ==== Sys2Proof/Word.lean ====
section
/-! DEFINITION. The words of the machine: the three bit-vector types the spec's rules speak of. -/

namespace Sys2Proof

/-- A 64-bit word: a register slot (R14), an instruction word (R60), an instruction index (R18). -/
abbrev Word := BitVec 64

/-- One byte of the stack or of the binary image (R42, R45). -/
abbrev Byte := BitVec 8

/-- A 7-bit register id, the name of one of the 128 slots (R7, R14). -/
abbrev RegId := BitVec 7

end Sys2Proof
end

