-- ==== Sys2Proof/Syntax/Fields.lean ====
section
/-! DEFINITION. What an instruction is made of: the five formats (R62), the operand fields of each (R63 to R68), the
operations of each (R2, R76), and the decoder's table-free answer `Decoded` (R70). -/

namespace Sys2Proof

/-- The five formats (R62). -/
inductive Format where
  | noOperand
  | unary
  | binomial
  | threeAddress
  | registerImmediate
  deriving DecidableEq, Repr

/-- The nine operations of format THREE_ADDRESS (R2), in the order of R76. -/
inductive ThreeAddressOp where
  | add | sub | mul | div | shr | shl | and | or | xor
  deriving DecidableEq, Repr

/-- The thirteen operations of format UNARY (R2), in the order of R76. -/
inductive UnaryOp where
  | inc | dec | call | jmp | jr | je | jne | ja | jae | jb | jbe | push | pop
  deriving DecidableEq, Repr

/-- The three operations of format BINOMIAL (R2), in the order of R76. -/
inductive BinomialOp where
  | not | xchg | cmp
  deriving DecidableEq, Repr

/-- The two operations of format NO_OPERAND (R2), in the order of R76. -/
inductive NoOperandOp where
  | hlt | ret
  deriving DecidableEq, Repr

/-- The three operations of format REGISTER_IMMEDIATE (R2), in the order of R76. -/
inductive RegImmOp where
  | asgn | asgnh | asgnl
  deriving DecidableEq, Repr

def ThreeAddressOp.all : List ThreeAddressOp := [.add, .sub, .mul, .div, .shr, .shl, .and, .or, .xor]

def UnaryOp.all : List UnaryOp :=
  [.inc, .dec, .call, .jmp, .jr, .je, .jne, .ja, .jae, .jb, .jbe, .push, .pop]

def BinomialOp.all : List BinomialOp := [.not, .xchg, .cmp]

def NoOperandOp.all : List NoOperandOp := [.hlt, .ret]

def RegImmOp.all : List RegImmOp := [.asgn, .asgnh, .asgnl]

/-- The operand fields of a THREE_ADDRESS word (R67): an addressing flag (0 register, 1 pointer), a register id and an
option for the destination, source1 and source2. -/
structure ThreeAddressFields where
  amd : BitVec 1
  am1 : BitVec 1
  am2 : BitVec 1
  rd  : RegId
  rs1 : RegId
  rs2 : RegId
  od  : BitVec 10
  o1  : BitVec 10
  o2  : BitVec 10
  deriving DecidableEq, Repr

/-- The operand fields of a BINOMIAL word (R66). -/
structure BinomialFields where
  am1 : BitVec 1
  am2 : BitVec 1
  r1  : RegId
  r2  : RegId
  o1  : BitVec 20
  o2  : BitVec 20
  deriving DecidableEq, Repr

/-- The operand of a UNARY word, by its 2-bit addressing subtype (R64, R65). -/
inductive UnaryOperand where
  /-- `mode = 00`: the register `reg`, with its option. -/
  | register (reg : RegId) (opt : BitVec 47)
  /-- `mode = 01`: a pointer, register and byte offset; accepted by the decoder, never dereferenced. -/
  | pointer (reg : RegId) (opt : BitVec 47)
  /-- `mode = 10`: not assigned (R65, R80). -/
  | reserved (payload : BitVec 54)
  /-- `mode = 11`: the literal immediate (R73). -/
  | immediate (imm54 : BitVec 54)
  deriving DecidableEq, Repr

/-- The operand fields of a REGISTER_IMMEDIATE word (R68). -/
structure RegImmFields where
  reg   : RegId
  imm49 : BitVec 49
  deriving DecidableEq, Repr

/-- The tagged variant `Decoded` of R70. R70's `UnaryReg` with `ptr` 0 and 1, `UnaryRsvd` and `UnaryImm` are the four
constructors of `UnaryOperand`. -/
inductive Decoded where
  | noOperand (op : BitVec 5)
  | unary (op : BitVec 5) (operand : UnaryOperand)
  | binomial (op : BitVec 5) (fields : BinomialFields)
  | threeAddress (op : BitVec 5) (fields : ThreeAddressFields)
  | registerImmediate (op : BitVec 5) (fields : RegImmFields)
  | badFormat (fmt : BitVec 3) (op : BitVec 5) (rest : BitVec 56)
  deriving DecidableEq, Repr

end Sys2Proof
end

