-- ==== Sys2Proof/Syntax.lean ====
section
/-! DEFINITION. The 30 machine instructions (R2), one constructor per row of the opcode map (R76), in its order, each
with every operand field of its format: addressing flags and options are carried although they change nothing (R69). -/

namespace Sys2Proof

inductive Instr where
  /-- R102 -/
  | add (f : ThreeAddressFields)
  /-- R103 -/
  | sub (f : ThreeAddressFields)
  /-- R104 -/
  | mul (f : ThreeAddressFields)
  /-- R105 -/
  | div (f : ThreeAddressFields)
  /-- R106 -/
  | shr (f : ThreeAddressFields)
  /-- R107 -/
  | shl (f : ThreeAddressFields)
  /-- R108 -/
  | and (f : ThreeAddressFields)
  /-- R109 -/
  | or (f : ThreeAddressFields)
  /-- R110 -/
  | xor (f : ThreeAddressFields)
  /-- R122 -/
  | inc (o : UnaryOperand)
  /-- R123 -/
  | dec (o : UnaryOperand)
  /-- R114 -/
  | not (f : BinomialFields)
  /-- R115 -/
  | xchg (f : BinomialFields)
  /-- R116 -/
  | cmp (f : BinomialFields)
  /-- R124 -/
  | call (o : UnaryOperand)
  /-- R125 -/
  | jmp (o : UnaryOperand)
  /-- R126 -/
  | jr (o : UnaryOperand)
  /-- R128 -/
  | je (o : UnaryOperand)
  /-- R129 -/
  | jne (o : UnaryOperand)
  /-- R130 -/
  | ja (o : UnaryOperand)
  /-- R131 -/
  | jae (o : UnaryOperand)
  /-- R132 -/
  | jb (o : UnaryOperand)
  /-- R133 -/
  | jbe (o : UnaryOperand)
  /-- R134 -/
  | push (o : UnaryOperand)
  /-- R135 -/
  | pop (o : UnaryOperand)
  /-- R141 -/
  | hlt
  /-- R142 -/
  | ret
  /-- R146 -/
  | asgn (f : RegImmFields)
  /-- R147 -/
  | asgnh (f : RegImmFields)
  /-- R148 -/
  | asgnl (f : RegImmFields)
  deriving DecidableEq, Repr

end Sys2Proof
end

