-- ==== Sys2Proof/Config.lean ====
section
/-! DEFINITION. The parameters of R8. A model takes them as arguments; here they are the field `cfg` of `State`, which
nothing writes, so that a statement about every state holds for every value of every parameter. -/

namespace Sys2Proof

/-- `OPTABLE` (R8, R76): the operation code of each mnemonic. The format code of a mnemonic is that of its format, which
R2 and R62 fix. The defaults are the numbers of R76. -/
structure OpTable where
  add   : BitVec 5 := 0#5
  sub   : BitVec 5 := 1#5
  mul   : BitVec 5 := 2#5
  div   : BitVec 5 := 3#5
  shr   : BitVec 5 := 4#5
  shl   : BitVec 5 := 5#5
  and   : BitVec 5 := 6#5
  or    : BitVec 5 := 7#5
  xor   : BitVec 5 := 8#5
  inc   : BitVec 5 := 9#5
  dec   : BitVec 5 := 10#5
  not   : BitVec 5 := 11#5
  xchg  : BitVec 5 := 12#5
  cmp   : BitVec 5 := 13#5
  call  : BitVec 5 := 14#5
  jmp   : BitVec 5 := 15#5
  jr    : BitVec 5 := 16#5
  je    : BitVec 5 := 17#5
  jne   : BitVec 5 := 18#5
  ja    : BitVec 5 := 19#5
  jae   : BitVec 5 := 20#5
  jb    : BitVec 5 := 21#5
  jbe   : BitVec 5 := 22#5
  push  : BitVec 5 := 23#5
  pop   : BitVec 5 := 24#5
  hlt   : BitVec 5 := 25#5
  ret   : BitVec 5 := 26#5
  asgn  : BitVec 5 := 27#5
  asgnh : BitVec 5 := 28#5
  asgnl : BitVec 5 := 29#5
  deriving DecidableEq, Repr

/-- The default `OPTABLE` (R76, decision D3). -/
def OpTable.default : OpTable := {}

/-- The operation code that the table gives an operation of format THREE_ADDRESS. -/
def OpTable.threeAddressCode (t : OpTable) : ThreeAddressOp → BitVec 5
  | .add => t.add
  | .sub => t.sub
  | .mul => t.mul
  | .div => t.div
  | .shr => t.shr
  | .shl => t.shl
  | .and => t.and
  | .or => t.or
  | .xor => t.xor

/-- The operation code that the table gives an operation of format UNARY. -/
def OpTable.unaryCode (t : OpTable) : UnaryOp → BitVec 5
  | .inc => t.inc
  | .dec => t.dec
  | .call => t.call
  | .jmp => t.jmp
  | .jr => t.jr
  | .je => t.je
  | .jne => t.jne
  | .ja => t.ja
  | .jae => t.jae
  | .jb => t.jb
  | .jbe => t.jbe
  | .push => t.push
  | .pop => t.pop

/-- The operation code that the table gives an operation of format BINOMIAL. -/
def OpTable.binomialCode (t : OpTable) : BinomialOp → BitVec 5
  | .not => t.not
  | .xchg => t.xchg
  | .cmp => t.cmp

/-- The operation code that the table gives an operation of format NO_OPERAND. -/
def OpTable.noOperandCode (t : OpTable) : NoOperandOp → BitVec 5
  | .hlt => t.hlt
  | .ret => t.ret

/-- The operation code that the table gives an operation of format REGISTER_IMMEDIATE. -/
def OpTable.regImmCode (t : OpTable) : RegImmOp → BitVec 5
  | .asgn => t.asgn
  | .asgnh => t.asgnh
  | .asgnl => t.asgnl

/-- `SHIFT_POLICY` (R8): what `shr` and `shl` do with an amount of 64 or more. -/
inductive ShiftPolicy where
  | fault
  | zero
  | mod64
  deriving DecidableEq, Repr

/-- `DIV0_POLICY` (R8): what `div` does with a zero divisor; the spec offers one value. -/
inductive Div0Policy where
  | fault
  deriving DecidableEq, Repr

/-- The quantities the stack moves: 1, 2, 4 or 8 bytes (R45, R46). -/
inductive Quantity where
  | one
  | two
  | four
  | eight
  deriving DecidableEq, Repr

/-- How many bytes a quantity is. -/
def Quantity.bytes : Quantity → Nat
  | .one => 1
  | .two => 2
  | .four => 4
  | .eight => 8

/-- The parameters of R8 but `N` and `IMem`, which are the state's `image`. -/
structure Config where
  /-- `OPTABLE` -/
  optable      : OpTable
  /-- `CMP_SOURCE_BUG` -/
  cmpSourceBug : Bool
  /-- `SHL_SOURCE_BUG` -/
  shlSourceBug : Bool
  /-- `EXC_HALTS` -/
  excHalts     : Bool
  /-- `SHIFT_POLICY` -/
  shiftPolicy  : ShiftPolicy
  /-- `DIV0_POLICY` -/
  div0Policy   : Div0Policy
  /-- `STACK_MAX`; `none` is unbounded -/
  stackMax     : Option Nat
  /-- `PUSH_BYTES` -/
  pushBytes    : Quantity
  deriving DecidableEq, Repr

/-- The defaults of R8. -/
def Config.default : Config where
  optable := OpTable.default
  cmpSourceBug := false
  shlSourceBug := false
  excHalts := true
  shiftPolicy := .fault
  div0Policy := .fault
  stackMax := none
  pushBytes := .eight

end Sys2Proof
end

