-- ==== Sys2Proof/WellFormed.lean ====
section
/-! DEFINITION. The checks a term of the syntax can fail. The width of every field is its type's, so none of them is
about a field's range but `Decoded.wf`'s; the others are about the operation codes of `OPTABLE` (R8: an injective map). -/

namespace Sys2Proof

/-- No other operation of the list has this operation's code. -/
def codeIsUnique {α : Type} [DecidableEq α] (code : α → BitVec 5) (all : List α) (m : α) : Bool :=
  all.all fun m' => m' == m || code m' != code m

/-- The table is injective on (format code, operation code) (R8): within each format no two operations share a code. -/
def OpTable.wf (t : OpTable) : Bool :=
  ThreeAddressOp.all.all (codeIsUnique t.threeAddressCode ThreeAddressOp.all)
  && UnaryOp.all.all (codeIsUnique t.unaryCode UnaryOp.all)
  && BinomialOp.all.all (codeIsUnique t.binomialCode BinomialOp.all)
  && NoOperandOp.all.all (codeIsUnique t.noOperandCode NoOperandOp.all)
  && RegImmOp.all.all (codeIsUnique t.regImmCode RegImmOp.all)

/-- A `BadFormat` value holds one of the format codes 5, 6, 7 (R70); every other value is within its widths by type. -/
def Decoded.wf : Decoded → Bool
  | .badFormat fmt _ _ => decide (5 ≤ fmt.toNat)
  | _ => true

/-- An instruction is well formed under a table when the table's code for its mnemonic selects that mnemonic alone among
those of its format, so that its word means it and nothing else. Under the default table every instruction is. -/
def Instr.wf (t : OpTable) : Instr → Bool
  | .add _ => codeIsUnique t.threeAddressCode ThreeAddressOp.all .add
  | .sub _ => codeIsUnique t.threeAddressCode ThreeAddressOp.all .sub
  | .mul _ => codeIsUnique t.threeAddressCode ThreeAddressOp.all .mul
  | .div _ => codeIsUnique t.threeAddressCode ThreeAddressOp.all .div
  | .shr _ => codeIsUnique t.threeAddressCode ThreeAddressOp.all .shr
  | .shl _ => codeIsUnique t.threeAddressCode ThreeAddressOp.all .shl
  | .and _ => codeIsUnique t.threeAddressCode ThreeAddressOp.all .and
  | .or _ => codeIsUnique t.threeAddressCode ThreeAddressOp.all .or
  | .xor _ => codeIsUnique t.threeAddressCode ThreeAddressOp.all .xor
  | .inc _ => codeIsUnique t.unaryCode UnaryOp.all .inc
  | .dec _ => codeIsUnique t.unaryCode UnaryOp.all .dec
  | .not _ => codeIsUnique t.binomialCode BinomialOp.all .not
  | .xchg _ => codeIsUnique t.binomialCode BinomialOp.all .xchg
  | .cmp _ => codeIsUnique t.binomialCode BinomialOp.all .cmp
  | .call _ => codeIsUnique t.unaryCode UnaryOp.all .call
  | .jmp _ => codeIsUnique t.unaryCode UnaryOp.all .jmp
  | .jr _ => codeIsUnique t.unaryCode UnaryOp.all .jr
  | .je _ => codeIsUnique t.unaryCode UnaryOp.all .je
  | .jne _ => codeIsUnique t.unaryCode UnaryOp.all .jne
  | .ja _ => codeIsUnique t.unaryCode UnaryOp.all .ja
  | .jae _ => codeIsUnique t.unaryCode UnaryOp.all .jae
  | .jb _ => codeIsUnique t.unaryCode UnaryOp.all .jb
  | .jbe _ => codeIsUnique t.unaryCode UnaryOp.all .jbe
  | .push _ => codeIsUnique t.unaryCode UnaryOp.all .push
  | .pop _ => codeIsUnique t.unaryCode UnaryOp.all .pop
  | .hlt => codeIsUnique t.noOperandCode NoOperandOp.all .hlt
  | .ret => codeIsUnique t.noOperandCode NoOperandOp.all .ret
  | .asgn _ => codeIsUnique t.regImmCode RegImmOp.all .asgn
  | .asgnh _ => codeIsUnique t.regImmCode RegImmOp.all .asgnh
  | .asgnl _ => codeIsUnique t.regImmCode RegImmOp.all .asgnl

end Sys2Proof
end

