-- ==== Sys2Proof/Decode.lean ====
section
/-! DEFINITION. The decoder block: format selection and field extraction (R61 to R75), the lookup in `OPTABLE` (R154, R155),
and after it the encoder (R71, R92). Every position is the spec's own choice D1, D2. -/

namespace Sys2Proof

/-- The format codes (R62). -/
def Format.code : Format → BitVec 3
  | .noOperand => 0#3
  | .unary => 1#3
  | .binomial => 2#3
  | .threeAddress => 3#3
  | .registerImmediate => 4#3

/-- The format that a code selects; the codes 5, 6 and 7 select none (R62, R79). -/
def Format.ofCode (c : BitVec 3) : Option Format :=
  if c = 0#3 then some .noOperand
  else if c = 1#3 then some .unary
  else if c = 2#3 then some .binomial
  else if c = 3#3 then some .threeAddress
  else if c = 4#3 then some .registerImmediate
  else none

/-- `w[lo+n-1 : lo]` (R9). -/
def bitField (w : Word) (lo n : Nat) : BitVec n := w.extractLsb' lo n

/-- The operand of a UNARY word, by the subtype `w[55:54]` (R64, R65, R70). -/
def unaryOperandOf (w : Word) : UnaryOperand :=
  let mode := bitField w 54 2
  if mode = 0#2 then .register (bitField w 47 7) (bitField w 0 47)
  else if mode = 1#2 then .pointer (bitField w 47 7) (bitField w 0 47)
  else if mode = 2#2 then .reserved (bitField w 0 54)
  else .immediate (bitField w 0 54)

/-- The operand fields of a BINOMIAL word (R66). -/
def binomialFieldsOf (w : Word) : BinomialFields where
  am1 := bitField w 55 1
  am2 := bitField w 54 1
  r1 := bitField w 47 7
  r2 := bitField w 40 7
  o1 := bitField w 20 20
  o2 := bitField w 0 20

/-- The operand fields of a THREE_ADDRESS word (R67); `w[1:0]` is no field. -/
def threeAddressFieldsOf (w : Word) : ThreeAddressFields where
  amd := bitField w 55 1
  am1 := bitField w 54 1
  am2 := bitField w 53 1
  rd := bitField w 46 7
  rs1 := bitField w 39 7
  rs2 := bitField w 32 7
  od := bitField w 22 10
  o1 := bitField w 12 10
  o2 := bitField w 2 10

/-- The operand fields of a REGISTER_IMMEDIATE word (R68). -/
def regImmFieldsOf (w : Word) : RegImmFields where
  reg := bitField w 49 7
  imm49 := bitField w 0 49

/-- The function `Decode` of R70: total, and independent of `OPTABLE` and of the state. -/
def decodeFields (w : Word) : Decoded :=
  let fmt := bitField w 61 3
  let op := bitField w 56 5
  match Format.ofCode fmt with
  | some .noOperand => .noOperand op
  | some .unary => .unary op (unaryOperandOf w)
  | some .binomial => .binomial op (binomialFieldsOf w)
  | some .threeAddress => .threeAddress op (threeAddressFieldsOf w)
  | some .registerImmediate => .registerImmediate op (regImmFieldsOf w)
  | none => .badFormat fmt op (bitField w 0 56)

/-- Why the dispatch finds no instruction in a word (R154). -/
inductive DecodeReject where
  /-- The format code is 5, 6 or 7 (R79). -/
  | undefinedFormat (fmt : BitVec 3)
  /-- `OPTABLE` does not hold the pair (R78). -/
  | undefinedOperation (fmt : BitVec 3) (op : BitVec 5)
  deriving DecidableEq, Repr

/-- `mn(fmt, op)` of R155 within one format: the operation whose code is `op`. -/
def opOfCode {α : Type} (code : α → BitVec 5) (all : List α) (op : BitVec 5) : Option α :=
  all.find? fun m => code m == op

/-- The instruction of a THREE_ADDRESS operation. -/
def ThreeAddressOp.instr (f : ThreeAddressFields) : ThreeAddressOp → Instr
  | .add => .add f
  | .sub => .sub f
  | .mul => .mul f
  | .div => .div f
  | .shr => .shr f
  | .shl => .shl f
  | .and => .and f
  | .or => .or f
  | .xor => .xor f

/-- The instruction of a UNARY operation. -/
def UnaryOp.instr (o : UnaryOperand) : UnaryOp → Instr
  | .inc => .inc o
  | .dec => .dec o
  | .call => .call o
  | .jmp => .jmp o
  | .jr => .jr o
  | .je => .je o
  | .jne => .jne o
  | .ja => .ja o
  | .jae => .jae o
  | .jb => .jb o
  | .jbe => .jbe o
  | .push => .push o
  | .pop => .pop o

/-- The instruction of a BINOMIAL operation. -/
def BinomialOp.instr (f : BinomialFields) : BinomialOp → Instr
  | .not => .not f
  | .xchg => .xchg f
  | .cmp => .cmp f

/-- The instruction of a NO_OPERAND operation. -/
def NoOperandOp.instr : NoOperandOp → Instr
  | .hlt => .hlt
  | .ret => .ret

/-- The instruction of a REGISTER_IMMEDIATE operation. -/
def RegImmOp.instr (f : RegImmFields) : RegImmOp → Instr
  | .asgn => .asgn f
  | .asgnh => .asgnh f
  | .asgnl => .asgnl f

/-- One row of the dispatch table of R155: the instruction of the operation found, or `undefined`. -/
def selected {α : Type} (fmt : Format) (op : BitVec 5) (instr : α → Instr) :
    Option α → Except DecodeReject Instr
  | some m => .ok (instr m)
  | none => .error (.undefinedOperation fmt.code op)

/-- The dispatch: format first, then operation code within the format (R154, R155). -/
def select (t : OpTable) : Decoded → Except DecodeReject Instr
  | .noOperand op =>
    selected .noOperand op NoOperandOp.instr (opOfCode t.noOperandCode NoOperandOp.all op)
  | .unary op o => selected .unary op (UnaryOp.instr o) (opOfCode t.unaryCode UnaryOp.all op)
  | .binomial op f =>
    selected .binomial op (BinomialOp.instr f) (opOfCode t.binomialCode BinomialOp.all op)
  | .threeAddress op f =>
    selected .threeAddress op (ThreeAddressOp.instr f) (opOfCode t.threeAddressCode ThreeAddressOp.all op)
  | .registerImmediate op f =>
    selected .registerImmediate op (RegImmOp.instr f) (opOfCode t.regImmCode RegImmOp.all op)
  | .badFormat fmt _ _ => .error (.undefinedFormat fmt)

/-- The instruction that a word holds under a table, or why it holds none. -/
def decode (t : OpTable) (w : Word) : Except DecodeReject Instr := select t (decodeFields w)

/-- The instruction of the opcode-table row whose bits are `w`: the word is the instruction (R60), under the default
`OPTABLE`. -/
def decodeTableWord (nbits w : Nat) : Option Instr :=
  match decode OpTable.default (BitVec.ofNat 64 (w % 2 ^ nbits)) with
  | .ok i => some i
  | .error _ => none

/-! ### The encoder -/

/-- `Pack` (R71): every field at its position, every bit of no field 0. `a ++ b` has `a` in the more significant place
(R9). -/
def pack : Decoded → Word
  | .noOperand op => Format.noOperand.code ++ op ++ 0#56
  | .unary op (.register reg opt) => Format.unary.code ++ op ++ 0#2 ++ reg ++ opt
  | .unary op (.pointer reg opt) => Format.unary.code ++ op ++ 1#2 ++ reg ++ opt
  | .unary op (.reserved payload) => Format.unary.code ++ op ++ 2#2 ++ payload
  | .unary op (.immediate imm54) => Format.unary.code ++ op ++ 3#2 ++ imm54
  | .binomial op f => Format.binomial.code ++ op ++ f.am1 ++ f.am2 ++ f.r1 ++ f.r2 ++ f.o1 ++ f.o2
  | .threeAddress op f =>
    Format.threeAddress.code ++ op ++ f.amd ++ f.am1 ++ f.am2 ++ f.rd ++ f.rs1 ++ f.rs2 ++ f.od ++ f.o1 ++ f.o2
      ++ 0#2
  | .registerImmediate op f => Format.registerImmediate.code ++ op ++ f.reg ++ f.imm49
  | .badFormat fmt op rest => fmt ++ op ++ rest

/-- The fields of an instruction with the table's operation code for its mnemonic (R92). -/
def Instr.decoded (t : OpTable) : Instr → Decoded
  | .add f => .threeAddress t.add f
  | .sub f => .threeAddress t.sub f
  | .mul f => .threeAddress t.mul f
  | .div f => .threeAddress t.div f
  | .shr f => .threeAddress t.shr f
  | .shl f => .threeAddress t.shl f
  | .and f => .threeAddress t.and f
  | .or f => .threeAddress t.or f
  | .xor f => .threeAddress t.xor f
  | .inc o => .unary t.inc o
  | .dec o => .unary t.dec o
  | .not f => .binomial t.not f
  | .xchg f => .binomial t.xchg f
  | .cmp f => .binomial t.cmp f
  | .call o => .unary t.call o
  | .jmp o => .unary t.jmp o
  | .jr o => .unary t.jr o
  | .je o => .unary t.je o
  | .jne o => .unary t.jne o
  | .ja o => .unary t.ja o
  | .jae o => .unary t.jae o
  | .jb o => .unary t.jb o
  | .jbe o => .unary t.jbe o
  | .push o => .unary t.push o
  | .pop o => .unary t.pop o
  | .hlt => .noOperand t.hlt
  | .ret => .noOperand t.ret
  | .asgn f => .registerImmediate t.asgn f
  | .asgnh f => .registerImmediate t.asgnh f
  | .asgnl f => .registerImmediate t.asgnl f

/-- The word of an instruction under a table (R71, R92). -/
def encode (t : OpTable) (i : Instr) : Word := pack (i.decoded t)

/-- The bits of a word that belong to a field (`KEEP` of R72 (b)). -/
def keepMask (w : Word) : Word :=
  match Format.ofCode (bitField w 61 3) with
  | some .noOperand => 0xFF00000000000000
  | some .threeAddress => 0xFFFFFFFFFFFFFFFC
  | _ => 0xFFFFFFFFFFFFFFFF

end Sys2Proof
end

