-- ==== Sys2Proof/Machine/State.lean ====
section
/-! DEFINITION. The architectural state (R13), as plain data, and the state right after reset (R30, R190). -/

namespace Sys2Proof.Machine

/-- The ten exception causes with the `info` each records (R171). They are raised by instructions and by the cycle, and
taken as R176 says: a next state whose fault latch holds one of them. -/
inductive Exception where
  /-- code 1, `info` the format code and the operation code (R172) -/
  | undefinedOperation (fmt : BitVec 3) (op : BitVec 5)
  /-- code 2, `info` the format code (R173) -/
  | undefinedFormat (fmt : BitVec 3)
  /-- code 3, `info` the register id (R174) -/
  | unsupportedAddressing (reg : RegId)
  /-- code 4, `info` the value 2 (R175) -/
  | reservedAddressingMode
  /-- code 5, `info` the value 3 (R177) -/
  | operandNotWritable
  /-- code 6, `info` 0 (R178) -/
  | divideByZero
  /-- code 7, `info` the amount (R180) -/
  | shiftOutOfRange (amount : Word)
  /-- code 8, `info` the stack length (R181) -/
  | stackUnderflow (len : Nat)
  /-- code 9, `info` the stack length (R182) -/
  | stackOverflow (len : Nat)
  /-- code 10, `info` the instruction pointer (R183) -/
  | fetchOutOfRange (ip : Word)
  deriving DecidableEq, Repr

/-- The reasons a step could end in a host fault. There are none: whatever the spec lets go wrong is an exception whose
entry R176 describes, and the step that takes it answers a next state. -/
inductive Fault where
  deriving DecidableEq, Repr

/-- The reasons a step could be refused. -/
inductive Refusal where
  /-- Raised by `exec` alone, for an instruction that has no meaning yet: none is left, so no step answers it. Safe: the
  model stops where the hardware goes on. -/
  | notModelled (mnemonic : String)
  deriving DecidableEq, Repr

/-- The architectural state (R13). Slot 65 of `regs` is the instruction pointer, the low three bits of slot 66 are the
flags (R18 to R20), and `N` (R41) is the length of `image`. -/
structure State where
  /-- the 128 slots of 64 bits (R14); read and written by `State.readReg` and `State.writeReg` only (R15) -/
  regs  : Vector Word 128
  /-- `Stack[0]`, the oldest byte, first (R45) -/
  stack : List Byte
  /-- the fault latch (R24) -/
  fault : Option Exception
  /-- `IMem`, the program image, word 0 first (R41); no step writes it -/
  image : List Word
  /-- the parameters of R8; no step writes them -/
  cfg   : Config
  deriving DecidableEq, Repr

/-- The machine right after reset (R30, R190), with no image loaded and the default parameters (R8). -/
def State.reset : State where
  regs := Vector.replicate 128 0#64
  stack := []
  fault := none
  image := []
  cfg := Config.default

end Sys2Proof.Machine
end

