-- ==== Sys2Proof/Machine/Flags.lean ====
section
/-! DEFINITION. The flags word as a word: its three bits (R20), what `cmp` writes to it (R116), and the conditions of the
six conditional jumps (R127). -/

namespace Sys2Proof.Machine

/-- The bit of `equal` in `x[66]` (R20). -/
def equalBit : Nat := 0

/-- The bit of `above` in `x[66]` (R20). -/
def aboveBit : Nat := 1

/-- The bit of `halt` in `x[66]` (R20). -/
def haltBit : Nat := 2

/-- The word with bit `k` written and the other 63 left (R10). -/
def setBit (w : Word) (k : Nat) (b : Bool) : Word :=
  if b then w ||| BitVec.twoPow 64 k else w &&& ~~~ BitVec.twoPow 64 k

/-- The flags word after `cmp` of `a` and `b` (R116): `equal`, and `above` unless `CMP_SOURCE_BUG` is set. -/
def compareFlags (sourceBug : Bool) (a b flags : Word) : Word :=
  let withEqual := setBit flags equalBit (decide (a = b))
  if sourceBug then withEqual else setBit withEqual aboveBit (decide (b < a))

/-- The conditions of R127, over `equal` and `above`. -/
inductive Condition where
  | e | ne | a | ae | b | be
  deriving DecidableEq, Repr

/-- When a conditional jump is taken (R127). -/
def Condition.holds (c : Condition) (equal above : Bool) : Bool :=
  match c with
  | .e => equal
  | .ne => !equal
  | .a => above
  | .ae => equal || above
  | .b => !equal && !above
  | .be => !above

end Sys2Proof.Machine
end

