-- ==== Sys2Proof/Machine/Ops.lean ====
section
/-! DEFINITION. The named operations over the state: registers (R15), instruction pointer (R18), flags (R20), the stack
(R47 to R49), the exception entry (R176), and beside it the reset operation, the only way out of an exception (R185). -/

namespace Sys2Proof.Machine

/-- What a meaning answers. -/
abbrev Result := Host.Outcome State Fault Refusal

/-! ### Registers -/

/-- Slot 65, the instruction pointer (R17). -/
def ipSlot : RegId := 65#7

/-- Slot 66, the flags (R17). -/
def flagsSlot : RegId := 66#7

/-- `x[i]` (R10): 0 for slot 0 at all times (R15). -/
def State.readReg (s : State) (i : RegId) : Word :=
  if i = 0#7 then 0#64 else s.regs[i.toNat]'(i.isLt)

/-- `x[i] <- v` (R10): discarded for slot 0 (R15). -/
def State.writeReg (s : State) (i : RegId) (v : Word) : State :=
  if i = 0#7 then s else { s with regs := s.regs.set i.toNat v i.isLt }

/-- The instruction pointer (R18). -/
def State.ip (s : State) : Word := s.readReg ipSlot

/-- `pc <- target` (R10). -/
def State.setIp (s : State) (target : Word) : State := s.writeReg ipSlot target

/-! ### Flags -/

/-- One bit of the flags word (R20). -/
def State.flag (s : State) (k : Nat) : Bool := (s.readReg flagsSlot).getLsbD k

/-- `flags.f <- b`: one bit of the flags word, the other 63 left (R10). -/
def State.setFlag (s : State) (k : Nat) (b : Bool) : State :=
  s.writeReg flagsSlot (setBit (s.readReg flagsSlot) k b)

/-- The flag `equal` (R20). -/
def State.equal (s : State) : Bool := s.flag equalBit

/-- The flag `above` (R20). -/
def State.above (s : State) : Bool := s.flag aboveBit

/-- The flag `halt` (R20). -/
def State.halt (s : State) : Bool := s.flag haltBit

/-! ### The stack -/

/-- The `n` bytes of a quantity with value `v`, `v[8k+7:8k]` at offset `k` (R47). -/
def leBytes (n : Nat) (v : Word) : List Byte := (List.range n).map fun k => v.extractLsb' (8 * k) 8

/-- The value of bytes in little-endian order: the sum over `k` of byte `k` times `2^(8k)` (R47). -/
def leValue (bytes : List Byte) : Word := bytes.foldr (fun b acc => (acc <<< 8) ||| b.setWidth 64) 0

/-- `MemRead(off, n)` over the stack bytes (R47). -/
def memRead (stack : List Byte) (off n : Nat) : Word := leValue ((stack.drop off).take n)

/-- `MemWrite(off, n, v)` over the stack bytes, extending them when they end inside (R47, R48). -/
def memWrite (stack : List Byte) (off n : Nat) (v : Word) : List Byte :=
  stack.take off ++ leBytes n v ++ stack.drop (off + n)

/-- Whether a stack of `len` bytes is allowed by `STACK_MAX` (R48). -/
def fitsStack (stackMax : Option Nat) (len : Nat) : Bool :=
  match stackMax with
  | none => true
  | some m => decide (len ≤ m)

/-- `Push(n, v)` (R48). -/
def State.push (s : State) (n : Quantity) (v : Word) : Except Exception State :=
  let off := s.stack.length
  if fitsStack s.cfg.stackMax (off + n.bytes) then .ok { s with stack := memWrite s.stack off n.bytes v }
  else .error (.stackOverflow off)

/-- `Pop(n)` (R49): the value removed, zero-extended, and the state without it. -/
def State.pop (s : State) (n : Quantity) : Except Exception (Word × State) :=
  let len := s.stack.length
  if len < n.bytes then .error (.stackUnderflow len)
  else
    let off := len - n.bytes
    .ok (memRead s.stack off n.bytes, { s with stack := s.stack.take off })

/-- One byte of the stack by its offset from the bottom; none above the top (R45). -/
def State.stackByte (s : State) (off : Nat) : Option Byte := s.stack[off]?

/-! ### The program image -/

/-- `IMem[i]`; none for an index that names no word (R41). -/
def State.imageWord (s : State) (i : Nat) : Option Word := s.image[i]?

/-- The two memories are in form: fewer than 2^64 image words (R8), a stack no longer than `STACK_MAX` (R48), and a stack
length that is a multiple of `PUSH_BYTES` (R46). Lists of words and bytes have no second form for one content, so equal
memories are equal data without more. -/
def Memory.wf (s : State) : Bool :=
  decide (s.image.length < 2 ^ 64) && fitsStack s.cfg.stackMax s.stack.length
    && decide (s.cfg.pushBytes.bytes ∣ s.stack.length)

/-! ### Exceptions -/

/-- The code of a cause (R171). -/
def Exception.code : Exception → Nat
  | .undefinedOperation _ _ => 1
  | .undefinedFormat _ => 2
  | .unsupportedAddressing _ => 3
  | .reservedAddressingMode => 4
  | .operandNotWritable => 5
  | .divideByZero => 6
  | .shiftOutOfRange _ => 7
  | .stackUnderflow _ => 8
  | .stackOverflow _ => 9
  | .fetchOutOfRange _ => 10

/-- The `info` recorded with a cause (R171); two numbers for an undefined operation, one for every other. -/
def Exception.info : Exception → List Nat
  | .undefinedOperation fmt op => [fmt.toNat, op.toNat]
  | .undefinedFormat fmt => [fmt.toNat]
  | .unsupportedAddressing reg => [reg.toNat]
  | .reservedAddressingMode => [2]
  | .operandNotWritable => [3]
  | .divideByZero => [0]
  | .shiftOutOfRange amount => [amount.toNat]
  | .stackUnderflow len => [len]
  | .stackOverflow len => [len]
  | .fetchOutOfRange ip => [ip.toNat]

/-- Exception entry (R176) on the state in which the instruction has done none of its writes: the latch keeps the first
fault, and `halt` becomes `EXC_HALTS`. -/
def State.raise (s : State) (e : Exception) : State :=
  let latched := match s.fault with
    | none => { s with fault := some e }
    | some _ => s
  latched.setFlag haltBit s.cfg.excHalts

/-- The next state of an operation that may raise: its own, or that of the exception taken on `s`. -/
def State.orRaise (s : State) : Except Exception State → Result
  | .ok t => .next t
  | .error e => .next (s.raise e)

/-- The host operation `reset()` (R164, R190): there is no return from an exception, only this (R185). The image and the
parameters stay. -/
def State.reinit (s : State) : State := { State.reset with image := s.image, cfg := s.cfg }

end Sys2Proof.Machine
end

