-- ==== Sys2Proof/Machine/Operands.lean ====
section
/-! DEFINITION. The operand forms: the UNARY operand as a value (R120) and as a place to write back to (R121), and the
shapes the instructions of the formats THREE_ADDRESS and UNARY share (R101, R127). -/

namespace Sys2Proof.Machine

/-- `Resolve(d)` (R120): the value of a UNARY operand. -/
def State.resolve (s : State) : UnaryOperand → Except Exception Word
  | .register reg _ => .ok (s.readReg reg)
  | .immediate imm54 => .ok (imm54.setWidth 64)
  | .pointer reg _ => .error (.unsupportedAddressing reg)
  | .reserved _ => .error .reservedAddressingMode

/-- The register that `inc`, `dec` and `pop` write back to (R121): an immediate has none, a pointer and the reserved
subtype have no value either (R120). -/
def writeBackReg : UnaryOperand → Except Exception RegId
  | .register reg _ => .ok reg
  | .immediate _ => .error .operandNotWritable
  | .pointer reg _ => .error (.unsupportedAddressing reg)
  | .reserved _ => .error .reservedAddressingMode

/-- The common execution of THREE_ADDRESS (R101): read both sources, compute, write the destination. -/
def State.threeAddress (s : State) (f : ThreeAddressFields) (op : Word → Word → Except Exception Word) : Result :=
  s.orRaise ((op (s.readReg f.rs1) (s.readReg f.rs2)).map (s.writeReg f.rd))

/-- The shift of `a` by the whole 64-bit amount `n` (R106, R107): an amount of 64 or more goes by `SHIFT_POLICY`. -/
def shiftBy (policy : ShiftPolicy) (shift : Word → Nat → Word) (a n : Word) : Except Exception Word :=
  if n.toNat < 64 then .ok (shift a n.toNat)
  else match policy with
    | .fault => .error (.shiftOutOfRange n)
    | .zero => .ok 0#64
    | .mod64 => .ok (shift a (n.extractLsb' 0 6).toNat)

/-- The quotient of `div` (R105): unsigned and truncating, a zero divisor by `DIV0_POLICY`. -/
def divideBy (policy : Div0Policy) (a b : Word) : Except Exception Word :=
  if b = 0#64 then
    match policy with
    | .fault => .error .divideByZero
  else .ok (a / b)

/-- `inc` and `dec`: write a function of the operand's value back to its register (R121 to R123). -/
def State.modify (s : State) (o : UnaryOperand) (f : Word → Word) : Result :=
  s.orRaise ((writeBackReg o).map fun reg => s.writeReg reg (f (s.readReg reg)))

/-- The operand is resolved whether or not the jump is taken (R120, R127). -/
def State.jumpIf (s : State) (taken : Bool) (o : UnaryOperand) : Result :=
  s.orRaise ((s.resolve o).map fun target => if taken then s.setIp target else s)

/-- A conditional jump (R127). -/
def State.jumpOn (s : State) (c : Condition) (o : UnaryOperand) : Result :=
  s.jumpIf (c.holds s.equal s.above) o

end Sys2Proof.Machine
end

