-- ==== Sys2Proof/Machine/Binomial.lean ====
section
/-! DEFINITION. The meanings of the BINOMIAL instructions (R114 to R116). -/

namespace Sys2Proof.Machine

/-- R114: `x[r1] <- ~x[r2]`. -/
def execNot (f : BinomialFields) (s : State) : Result := .next (s.writeReg f.r1 (~~~ s.readReg f.r2))

/-- R115: swap the two slots unless they are the same; both reads before both writes, `r1` written first. -/
def execXchg (f : BinomialFields) (s : State) : Result :=
  if f.r1 = f.r2 then .next s
  else .next ((s.writeReg f.r1 (s.readReg f.r2)).writeReg f.r2 (s.readReg f.r1))

/-- R116: write `equal` and `above`; the other bits of the flags word stay. -/
def execCmp (f : BinomialFields) (s : State) : Result :=
  .next (s.writeReg flagsSlot
    (compareFlags s.cfg.cmpSourceBug (s.readReg f.r1) (s.readReg f.r2) (s.readReg flagsSlot)))

end Sys2Proof.Machine
end

