-- ==== Sys2Proof/Machine/NoOperand.lean ====
section
/-! DEFINITION. The meanings of the NO_OPERAND instructions (R141, R142). -/

namespace Sys2Proof.Machine

/-- R141: `flags.halt <- 1`. -/
def execHlt (s : State) : Result := .next (s.setFlag haltBit true)

/-- R142: pop the instruction pointer. -/
def execRet (s : State) : Result :=
  s.orRaise do
    let popped ← s.pop s.cfg.pushBytes
    return popped.2.setIp popped.1

end Sys2Proof.Machine
end

