-- ==== Sys2Proof/Machine/RegisterImmediate.lean ====
section
/-! DEFINITION. The meanings of the REGISTER_IMMEDIATE instructions (R146 to R148). -/

namespace Sys2Proof.Machine

/-- `imm49[31:0]`, the half that `asgnh` and `asgnl` take (R147, R148). -/
def immHalf (imm49 : BitVec 49) : BitVec 32 := imm49.extractLsb' 0 32

/-- `w[63:32]`. -/
def upperHalf (w : Word) : BitVec 32 := w.extractLsb' 32 32

/-- `w[31:0]`. -/
def lowerHalf (w : Word) : BitVec 32 := w.extractLsb' 0 32

/-- R146: the register becomes the zero-extended immediate. -/
def execAsgn (f : RegImmFields) (s : State) : Result := .next (s.writeReg f.reg (f.imm49.setWidth 64))

/-- R147: the upper half becomes `imm49[31:0]`, the lower stays. -/
def execAsgnh (f : RegImmFields) (s : State) : Result :=
  .next (s.writeReg f.reg (immHalf f.imm49 ++ lowerHalf (s.readReg f.reg)))

/-- R148: the lower half becomes `imm49[31:0]`, the upper stays. -/
def execAsgnl (f : RegImmFields) (s : State) : Result :=
  .next (s.writeReg f.reg (upperHalf (s.readReg f.reg) ++ immHalf f.imm49))

end Sys2Proof.Machine
end

