-- ==== Sys2Proof/Machine/ThreeAddress.lean ====
section
/-! DEFINITION. The meanings of the THREE_ADDRESS instructions (R102 to R110). -/

namespace Sys2Proof.Machine

/-- R102: `x[rd] <- x[rs1] + x[rs2]`. -/
def execAdd (f : ThreeAddressFields) (s : State) : Result := s.threeAddress f fun a b => .ok (a + b)

/-- R103: `x[rd] <- x[rs1] - x[rs2]`. -/
def execSub (f : ThreeAddressFields) (s : State) : Result := s.threeAddress f fun a b => .ok (a - b)

/-- R104: the low 64 bits of the product. -/
def execMul (f : ThreeAddressFields) (s : State) : Result := s.threeAddress f fun a b => .ok (a * b)

/-- R105: the unsigned quotient, or `DivideByZero`. -/
def execDiv (f : ThreeAddressFields) (s : State) : Result := s.threeAddress f (divideBy s.cfg.div0Policy)

/-- R106: the logical right shift of source1 by source2. -/
def execShr (f : ThreeAddressFields) (s : State) : Result :=
  s.threeAddress f (shiftBy s.cfg.shiftPolicy fun a n => a >>> n)

/-- R107: the left shift of source1 by source2, or by source1 itself under `SHL_SOURCE_BUG`. -/
def execShl (f : ThreeAddressFields) (s : State) : Result :=
  s.threeAddress f fun a b =>
    shiftBy s.cfg.shiftPolicy (fun v n => v <<< n) a (if s.cfg.shlSourceBug then a else b)

/-- R108: bitwise and. -/
def execAnd (f : ThreeAddressFields) (s : State) : Result := s.threeAddress f fun a b => .ok (a &&& b)

/-- R109: bitwise or. -/
def execOr (f : ThreeAddressFields) (s : State) : Result := s.threeAddress f fun a b => .ok (a ||| b)

/-- R110: bitwise exclusive or. -/
def execXor (f : ThreeAddressFields) (s : State) : Result := s.threeAddress f fun a b => .ok (a ^^^ b)

end Sys2Proof.Machine
end

