-- ==== Sys2Proof/Machine/Unary.lean ====
section
/-! DEFINITION. The meanings of the UNARY instructions (R122 to R135). -/

namespace Sys2Proof.Machine

/-- R122: add one to the operand's register. -/
def execInc (o : UnaryOperand) (s : State) : Result := s.modify o (· + 1#64)

/-- R123: subtract one from the operand's register. -/
def execDec (o : UnaryOperand) (s : State) : Result := s.modify o (· - 1#64)

/-- R124: resolve the target, push the (already incremented) instruction pointer, jump. -/
def execCall (o : UnaryOperand) (s : State) : Result :=
  s.orRaise do
    let target ← s.resolve o
    let pushed ← s.push s.cfg.pushBytes s.ip
    return pushed.setIp target

/-- R125: jump. -/
def execJmp (o : UnaryOperand) (s : State) : Result := s.jumpIf true o

/-- R126: exactly as `jmp`. -/
def execJr (o : UnaryOperand) (s : State) : Result := s.jumpIf true o

/-- R128: jump if `equal`. -/
def execJe (o : UnaryOperand) (s : State) : Result := s.jumpOn .e o

/-- R129: jump if not `equal`. -/
def execJne (o : UnaryOperand) (s : State) : Result := s.jumpOn .ne o

/-- R130: jump if `above`. -/
def execJa (o : UnaryOperand) (s : State) : Result := s.jumpOn .a o

/-- R131: jump if `equal` or `above`. -/
def execJae (o : UnaryOperand) (s : State) : Result := s.jumpOn .ae o

/-- R132: jump if neither `equal` nor `above`. -/
def execJb (o : UnaryOperand) (s : State) : Result := s.jumpOn .b o

/-- R133: jump if not `above`. -/
def execJbe (o : UnaryOperand) (s : State) : Result := s.jumpOn .be o

/-- R134: push the operand's value, `PUSH_BYTES` bytes of it. -/
def execPush (o : UnaryOperand) (s : State) : Result :=
  s.orRaise do
    let v ← s.resolve o
    s.push s.cfg.pushBytes v

/-- R135: the operand's register is found before the stack is touched; the value popped is written to it. -/
def execPop (o : UnaryOperand) (s : State) : Result :=
  s.orRaise do
    let reg ← writeBackReg o
    let popped ← s.pop s.cfg.pushBytes
    return popped.2.writeReg reg popped.1

end Sys2Proof.Machine
end

