-- ==== Sys2Proof/Machine/Dispatch.lean ====
section
/-! DEFINITION. The execute stage: one arm per instruction (R155), run on the state whose instruction pointer is already
incremented (R152). -/

namespace Sys2Proof.Machine

def exec (i : Instr) (s : State) : Host.Outcome State Fault Refusal :=
  match i with
  | .add f => Sys2Proof.Machine.execAdd f s
  | .sub f => Sys2Proof.Machine.execSub f s
  | .mul f => Sys2Proof.Machine.execMul f s
  | .div f => Sys2Proof.Machine.execDiv f s
  | .shr f => Sys2Proof.Machine.execShr f s
  | .shl f => Sys2Proof.Machine.execShl f s
  | .and f => Sys2Proof.Machine.execAnd f s
  | .or f => Sys2Proof.Machine.execOr f s
  | .xor f => Sys2Proof.Machine.execXor f s
  | .inc o => Sys2Proof.Machine.execInc o s
  | .dec o => Sys2Proof.Machine.execDec o s
  | .not f => Sys2Proof.Machine.execNot f s
  | .xchg f => Sys2Proof.Machine.execXchg f s
  | .cmp f => Sys2Proof.Machine.execCmp f s
  | .call o => Sys2Proof.Machine.execCall o s
  | .jmp o => Sys2Proof.Machine.execJmp o s
  | .jr o => Sys2Proof.Machine.execJr o s
  | .je o => Sys2Proof.Machine.execJe o s
  | .jne o => Sys2Proof.Machine.execJne o s
  | .ja o => Sys2Proof.Machine.execJa o s
  | .jae o => Sys2Proof.Machine.execJae o s
  | .jb o => Sys2Proof.Machine.execJb o s
  | .jbe o => Sys2Proof.Machine.execJbe o s
  | .push o => Sys2Proof.Machine.execPush o s
  | .pop o => Sys2Proof.Machine.execPop o s
  | .hlt => Sys2Proof.Machine.execHlt s
  | .ret => Sys2Proof.Machine.execRet s
  | .asgn f => Sys2Proof.Machine.execAsgn f s
  | .asgnh f => Sys2Proof.Machine.execAsgnh f s
  | .asgnl f => Sys2Proof.Machine.execAsgnl f s

end Sys2Proof.Machine
end

