-- ==== Sys2Proof/Machine/Fetch.lean ====
section
/-! DEFINITION. The instruction space: fetch (R153), the IP increment (R152), and the binary image that the host loads (R42,
R43, R164). -/

namespace Sys2Proof.Machine

/-- `IMem[x[65]]`; none when `x[65] >= N` (R41, R153). -/
def State.fetch (s : State) : Option Word := s.imageWord s.ip.toNat

/-- Step 4 of the cycle: `x[65] <- (i + 1) mod 2^64` (R152, R18). -/
def State.advance (s : State) : State := s.setIp (s.ip + 1#64)

/-- The word of one 8-byte record of the binary image, big-endian (R42). -/
def wordOfRecord (b0 b1 b2 b3 b4 b5 b6 b7 : Byte) : Word := b0 ++ b1 ++ b2 ++ b3 ++ b4 ++ b5 ++ b6 ++ b7

/-- The words of a binary image; a short trailing record is discarded (R42, R43). -/
def deserialize : List Byte → List Word
  | b0 :: b1 :: b2 :: b3 :: b4 :: b5 :: b6 :: b7 :: rest => wordOfRecord b0 b1 b2 b3 b4 b5 b6 b7 :: deserialize rest
  | _ => []

/-- The 8-byte big-endian record of a word (R42). -/
def recordOfWord (w : Word) : List Byte :=
  [w.extractLsb' 56 8, w.extractLsb' 48 8, w.extractLsb' 40 8, w.extractLsb' 32 8,
    w.extractLsb' 24 8, w.extractLsb' 16 8, w.extractLsb' 8 8, w.extractLsb' 0 8]

/-- The binary image of a sequence of words (R42, R43). -/
def serialize : List Word → List Byte
  | [] => []
  | w :: rest => recordOfWord w ++ serialize rest

/-- The host operation `load(bytes)` (R164): it sets `IMem` and `N`. -/
def State.load (s : State) (bytes : List Byte) : State := { s with image := deserialize bytes }

/-- What the host does before the first cycle (R194): load the image, then reset. -/
def State.boot (s : State) (bytes : List Byte) : State := (s.load bytes).reinit

/-- The image with word `i` set to `w`, lengthened with zero words to reach it if it is too short. -/
def placeWord (image : List Word) (i : Nat) (w : Word) : List Word :=
  if i < image.length then image.set i w else image ++ List.replicate (i - image.length) 0#64 ++ [w]

/-- The state whose next cycle fetches and executes `w`: the word stands where the instruction pointer points, and the
machine is not stopped (R151). It stands for the host's load of an image (R194). -/
def State.withNextWord (s : State) (w : Word) : State :=
  let placed := { s with image := placeWord s.image s.ip.toNat w, fault := none }
  if s.halt then placed.setFlag haltBit false else placed

end Sys2Proof.Machine
end

