-- ==== Sys2Proof/Machine/Control.lean ====
section
/-! DEFINITION. The control path: the halt test and the cycle (R151 to R154), the run states (R157), the run loop (R160), and
what is reported (R32, R163). -/

namespace Sys2Proof.Machine

/-- The halt test (R151): `halt` is set or the fault latch is not `none`. -/
def State.stopped (s : State) : Bool := s.halt || s.fault.isSome

/-- The exception that the dispatch raises for a word that holds no instruction (R154, R172, R173). -/
def rejectException : DecodeReject → Exception
  | .undefinedFormat fmt => .undefinedFormat fmt
  | .undefinedOperation fmt op => .undefinedOperation fmt op

/-- Steps 5 and 6 of the cycle (R152), on the state with the instruction pointer incremented. -/
def State.decodeAndExecute (s : State) (w : Word) : Result :=
  match decode s.cfg.optable w with
  | .ok i => exec i s
  | .error r => .next (s.raise (rejectException r))

/-- `Cycle()` (R152). -/
def cycle (s : State) : Result :=
  if s.stopped then .next s
  else match s.fetch with
    | none => .next (s.raise (.fetchOutOfRange s.ip))
    | some w => s.advance.decodeAndExecute w

/-- The states of the control path (R157). -/
inductive RunState where
  | fault
  | halted
  | ended
  | run
  deriving DecidableEq, Repr

/-- The state of the control path, a function of the architectural state (R157). -/
def State.runState (s : State) : RunState :=
  if s.fault.isSome then .fault
  else if s.halt then .halted
  else if s.image.length ≤ s.ip.toNat then .ended
  else .run

/-- `Run()` (R160) under fuel (R162): the state the loop stops in, or none where the fuel ends first. -/
def runLoop : Nat → State → Option State
  | 0, s => if s.runState = .run then none else some s
  | fuel + 1, s =>
    if s.runState = .run then
      match cycle s with
      | .next t => runLoop fuel t
      | .fault _ => none
      | .refused _ => none
    else some s

/-- The content of the state dump (R32). -/
structure Dump where
  ip      : Word
  equal   : Bool
  above   : Bool
  halt    : Bool
  general : List Word
  deriving DecidableEq, Repr

/-- The state dump of a state: IP, the three flags, slots 1 to 64 (R32). -/
def State.dump (s : State) : Dump where
  ip := s.ip
  equal := s.equal
  above := s.above
  halt := s.halt
  general := (List.range 64).map fun k => s.readReg (BitVec.ofNat 7 (k + 1))

/-- What one cycle reports: the post-cycle state, and nothing for a no-op cycle (R151, R163). -/
def cycleReport (s : State) : Option Dump :=
  if s.stopped then none
  else match cycle s with
    | .next t => some t.dump
    | .fault _ => none
    | .refused _ => none

/-- What `observe()` shows (R163, R164): the whole state and the name of its run state. -/
structure Observation where
  state    : State
  runState : RunState
  deriving DecidableEq, Repr

/-- The host operation `observe()` (R164). -/
def State.observe (s : State) : Observation where
  state := s
  runState := s.runState

end Sys2Proof.Machine
end

