-- ==== Sys2Proof/Machine/Step.lean ====
section
/-! DEFINITION. One step of the machine is one cycle (R152, R156). -/

namespace Sys2Proof.Machine

def step (s : State) : Host.Outcome State Fault Refusal := cycle s

/-- `s` with the instruction whose bits are `w` where the next step fetches (log entry 1). Every instruction is one 64-bit
word (R60), so the bits above `nbits` are 0. -/
def State.withFetchWord (s : State) (nbits w : Nat) : State := s.withNextWord (BitVec.ofNat 64 (w % 2 ^ nbits))

end Sys2Proof.Machine
end

