-- ==== Sys2Proof/Machine/Assembler.lean ====
section
/-! DEFINITION. The assembler (R83 to R95): toolchain, not hardware (R5); no definition of the machine uses this file. It
turns source text into the words that `serialize` makes a binary image of. Text is a list of characters. -/

namespace Sys2Proof.Machine

/-- Source text. -/
abbrev Text := List Char

/-- The reasons assembly fails (R94). -/
inductive AsmReason where
  /-- The mnemonic is in no row of the opcode map (R86). -/
  | unknownMnemonic
  /-- The register name is in no row of the register table (R87, R88). -/
  | unknownRegister
  /-- The operand count is not the format's (R86). -/
  | operandCount (expected actual : Nat)
  /-- No line begins with the label (R91). -/
  | undefinedIdentifier
  /-- An immediate is required and something else stands there (R90, R94). -/
  | immediateRequired
  deriving DecidableEq, Repr

/-- A fatal error with the 1-based number of its source line (R94). -/
structure AsmError where
  line   : Nat
  reason : AsmReason
  deriving DecidableEq, Repr

/-! ### Source normalisation (R83) -/

/-- White space inside a line. -/
def isBlank (c : Char) : Bool := c == ' ' || c == '\t' || c == '\r'

/-- The separators around which white space is collapsed (R83). -/
def isTight (c : Char) : Bool := c == ',' || c == ':'

/-- Drop the blanks that follow a separator; the flag says that one has just been passed. -/
def dropBlanksAfter : Bool → Text → Text
  | _, [] => []
  | after, c :: cs => if after && isBlank c then dropBlanksAfter true cs else c :: dropBlanksAfter (isTight c) cs

/-- Collapse white space around `,` and `:` (R83). -/
def tighten (t : Text) : Text := (dropBlanksAfter false (dropBlanksAfter false t).reverse).reverse

/-- The pieces of a text between the characters that split it. -/
def splitText (splits : Char → Bool) (t : Text) : List Text :=
  t.foldr (fun c pieces => if splits c then [] :: pieces else (c :: pieces.headD []) :: pieces.tail) [[]]

/-- A text without the blanks at its two ends. -/
def trim (t : Text) : Text := ((t.dropWhile isBlank).reverse.dropWhile isBlank).reverse

/-- A logical line with the 1-based number of the source line it stands on (R83, R94). -/
structure SourceLine where
  number : Nat
  text   : Text
  deriving DecidableEq, Repr

/-- The logical lines of one source line, split on `;` and trimmed; the empty ones are dropped (R83, decision D33). -/
def linesOf (number : Nat) (source : Text) : List SourceLine :=
  (((splitText (· == ';') source).map trim).filter fun t => !t.isEmpty).map fun t => { number := number, text := t }

/-- The logical lines of a source text in order. A label counts them (R84); an error names the source line (R94). R83 lowers
all text and names no character set: that the letters `A` to `Z` alone are lowered is a DESIGN CHOICE (log entry 6). -/
def logicalLines (source : Text) : List SourceLine :=
  ((splitText (· == '\n') (tighten (source.map Char.toLower))).zipIdx 1).flatMap fun p => linesOf p.2 p.1

/-- The instruction body of a line: what follows the first `:`, if there is one (R84). -/
def bodyOf (line : Text) : Text :=
  if ':' ∈ line then trim ((line.dropWhile fun c => c != ':').drop 1) else line

/-- The index of the first line that begins with `<label>:` (R84, R91). That the first counts when several lines begin so is
a DESIGN CHOICE (log entry 6). -/
def labelIndex (lines : List Text) (label : Text) : Option Nat :=
  lines.findIdx? fun l => (label ++ [':']).isPrefixOf l

/-! ### Literals and names (R89, R93) -/

/-- The value of a digit in a base up to 16. -/
def digitValue (base : Nat) (c : Char) : Option Nat :=
  let v := if c.isDigit then some (c.toNat - '0'.toNat)
    else if 'a' ≤ c ∧ c ≤ 'f' then some (c.toNat - 'a'.toNat + 10)
    else none
  v.filter fun d => decide (d < base)

/-- The value of a run of at least one digit. -/
def digitsValue (base : Nat) (ds : Text) : Option Nat :=
  if ds.isEmpty then none
  else ds.foldl (fun acc c => acc.bind fun a => (digitValue base c).map fun d => a * base + d) (some 0)

/-- A numeric literal: `0`, hexadecimal after `0x`, octal after a leading `0`, else decimal (R89). -/
def literalValue : Text → Option Nat
  | ['0'] => some 0
  | '0' :: 'x' :: ds => digitsValue 16 ds
  | '0' :: ds => digitsValue 8 ds
  | ds => digitsValue 10 ds

/-- The register names and their ids (R93). -/
def registerTable : List (Text × RegId) :=
  [("r0".toList, 0), ("ip".toList, 65), ("flags".toList, 66), ("sp".toList, 67), ("bp".toList, 68)]
    ++ (List.range 32).map (fun i => ("rs".toList ++ Nat.toDigits 10 i, BitVec.ofNat 7 (1 + 2 * i)))
    ++ (List.range 32).map (fun i => ("rt".toList ++ Nat.toDigits 10 i, BitVec.ofNat 7 (2 + 2 * i)))

/-- The id of a register name. -/
def registerId (name : Text) : Except AsmReason RegId :=
  match registerTable.lookup name with
  | some id => .ok id
  | none => .error .unknownRegister

/-! ### Mnemonics (R86) -/

/-- The operation that a mnemonic names, with its format. -/
inductive AsmOp where
  | threeAddress (m : ThreeAddressOp)
  | unary (m : UnaryOp)
  | binomial (m : BinomialOp)
  | noOperand (m : NoOperandOp)
  | registerImmediate (m : RegImmOp)
  deriving DecidableEq, Repr

/-- The mnemonics of the opcode map (R76). -/
def mnemonicTable : List (Text × AsmOp) :=
  [("add".toList, .threeAddress .add), ("sub".toList, .threeAddress .sub), ("mul".toList, .threeAddress .mul),
    ("div".toList, .threeAddress .div), ("shr".toList, .threeAddress .shr), ("shl".toList, .threeAddress .shl),
    ("and".toList, .threeAddress .and), ("or".toList, .threeAddress .or), ("xor".toList, .threeAddress .xor)]
  ++ [("inc".toList, .unary .inc), ("dec".toList, .unary .dec), ("call".toList, .unary .call),
    ("jmp".toList, .unary .jmp), ("jr".toList, .unary .jr), ("je".toList, .unary .je), ("jne".toList, .unary .jne),
    ("ja".toList, .unary .ja), ("jae".toList, .unary .jae), ("jb".toList, .unary .jb), ("jbe".toList, .unary .jbe),
    ("push".toList, .unary .push), ("pop".toList, .unary .pop)]
  ++ [("not".toList, .binomial .not), ("xchg".toList, .binomial .xchg), ("cmp".toList, .binomial .cmp)]
  ++ [("hlt".toList, .noOperand .hlt), ("ret".toList, .noOperand .ret)]
  ++ [("asgn".toList, .registerImmediate .asgn), ("asgnh".toList, .registerImmediate .asgnh),
    ("asgnl".toList, .registerImmediate .asgnl)]

/-- Whether the single operand of a UNARY mnemonic is a jump or call target (R91). -/
def takesTarget : UnaryOp → Bool
  | .call | .jmp | .jr | .je | .jne | .ja | .jae | .jb | .jbe => true
  | .inc | .dec | .push | .pop => false

/-! ### Operands (R87, R88, R90, R91) -/

/-- A decoded register or pointer operand: its addressing flag, register and option. -/
structure AsmOperand where
  pointer : Bool
  reg     : RegId
  option  : Nat
  deriving DecidableEq, Repr

/-- The 1-bit addressing flag of an operand (R87, R88). -/
def AsmOperand.flag (o : AsmOperand) : BitVec 1 := if o.pointer then 1 else 0

/-- The code of a size keyword (R88). -/
def sizeCode (t : Text) : Option Nat :=
  if t = "byte".toList then some 1
  else if t = "word".toList then some 2
  else if t = "dword".toList then some 3
  else none

/-- The register operand form `[size] reg` (R88, conflict C5). -/
def registerOperand (t : Text) : Except AsmReason AsmOperand := do
  let tokens := (splitText isBlank t).filter fun p => !p.isEmpty
  let reg ← registerId (tokens.getLastD [])
  return { pointer := false, reg := reg, option := (tokens.dropLast.findSome? sizeCode).getD 0 }

/-- The pointer operand form, its brackets already stripped (R87). -/
def pointerOperand (inside : Text) : Except AsmReason AsmOperand :=
  match (splitText (· == '+') inside).map trim with
  | [name] => do
    let reg ← registerId name
    return { pointer := true, reg := reg, option := 0 }
  | [name, offset] => do
    let reg ← registerId name
    match digitsValue 10 offset with
    | some n => return { pointer := true, reg := reg, option := n }
    | none => .error .immediateRequired
  | _ => .error .immediateRequired

/-- A register or pointer operand (R87, R88). -/
def plainOperand (t : Text) : Except AsmReason AsmOperand :=
  match t with
  | '[' :: rest => if rest.getLast? = some ']' then pointerOperand rest.dropLast else .error .unknownRegister
  | _ => registerOperand t

/-- A jump or call target: a literal, or the line index of a label (R91). -/
def targetOperand (lines : List Text) (t : Text) : Except AsmReason UnaryOperand :=
  match literalValue t with
  | some v => .ok (.immediate (BitVec.ofNat 54 v))
  | none =>
    match labelIndex lines t with
    | some i => .ok (.immediate (BitVec.ofNat 54 i))
    | none => .error .undefinedIdentifier

/-- A REGISTER_IMMEDIATE literal (R90). -/
def literalOperand (t : Text) : Except AsmReason Nat :=
  match literalValue t with
  | some v => .ok v
  | none => .error .immediateRequired

/-! ### One statement -/

/-- The pseudo-instructions, rewritten before the mnemonic lookup (R85); `nop` and `raise` take no operand. -/
def rewritePseudo (mnemonic : Text) (operands : List Text) : Except AsmReason (Text × List Text) :=
  let r0 := "r0".toList
  if mnemonic = "nop".toList then
    if operands.isEmpty then .ok ("xchg".toList, [r0, r0]) else .error (.operandCount 0 operands.length)
  else if mnemonic = "raise".toList then
    if operands.isEmpty then .ok ("cmp".toList, [r0, r0]) else .error (.operandCount 0 operands.length)
  else if mnemonic = "mov".toList then
    match operands with
    | [d, s] => .ok ("add".toList, [d, s, r0])
    | _ => .error (.operandCount 2 operands.length)
  else .ok (mnemonic, operands)

/-- The fields of a statement whose mnemonic is known (R86, R92); the operand count is the format's. -/
def statementFields (t : OpTable) (lines : List Text) (op : AsmOp) (operands : List Text) :
    Except AsmReason Decoded :=
  match op, operands with
  | .noOperand m, [] => .ok (.noOperand (t.noOperandCode m))
  | .noOperand _, _ => .error (.operandCount 0 operands.length)
  | .unary m, [a] =>
    if takesTarget m then (targetOperand lines a).map (Decoded.unary (t.unaryCode m))
    else (plainOperand a).map fun o =>
      .unary (t.unaryCode m)
        (if o.pointer then .pointer o.reg (BitVec.ofNat 47 o.option) else .register o.reg (BitVec.ofNat 47 o.option))
  | .unary _, _ => .error (.operandCount 1 operands.length)
  | .binomial m, [a, b] => do
    let o1 ← plainOperand a
    let o2 ← plainOperand b
    return .binomial (t.binomialCode m) {
      am1 := o1.flag, am2 := o2.flag, r1 := o1.reg, r2 := o2.reg,
      o1 := BitVec.ofNat 20 o1.option, o2 := BitVec.ofNat 20 o2.option }
  | .binomial _, _ => .error (.operandCount 2 operands.length)
  | .threeAddress m, [d, a, b] => do
    let od ← plainOperand d
    let o1 ← plainOperand a
    let o2 ← plainOperand b
    return .threeAddress (t.threeAddressCode m) {
      amd := od.flag, am1 := o1.flag, am2 := o2.flag, rd := od.reg, rs1 := o1.reg, rs2 := o2.reg,
      od := BitVec.ofNat 10 od.option, o1 := BitVec.ofNat 10 o1.option, o2 := BitVec.ofNat 10 o2.option }
  | .threeAddress _, _ => .error (.operandCount 3 operands.length)
  | .registerImmediate m, [a, b] => do
    let o ← registerOperand a
    let v ← literalOperand b
    return .registerImmediate (t.regImmCode m) { reg := o.reg, imm49 := BitVec.ofNat 49 v }
  | .registerImmediate _, _ => .error (.operandCount 2 operands.length)

/-- The word of one instruction body (R85, R86, R92). -/
def assembleBody (t : OpTable) (lines : List Text) (body : Text) : Except AsmReason Word := do
  let mnemonic := body.takeWhile fun c => !isBlank c
  let rest := trim (body.dropWhile fun c => !isBlank c)
  let operands := if rest.isEmpty then [] else (splitText (· == ',') rest).map trim
  let rewritten ← rewritePseudo mnemonic operands
  match mnemonicTable.lookup rewritten.1 with
  | some op => (statementFields t lines op rewritten.2).map pack
  | none => .error .unknownMnemonic

/-- The words of the lines; a line with an empty body emits nothing (R84, R95), and the first error ends it (R94). The first
list is all lines, for label lookup. -/
def assembleLines (t : OpTable) (all : List Text) : List SourceLine → Except AsmError (List Word)
  | [] => .ok []
  | line :: rest =>
    if (bodyOf line.text).isEmpty then assembleLines t all rest
    else
      match assembleBody t all (bodyOf line.text) with
      | .error r => .error { line := line.number, reason := r }
      | .ok w => (assembleLines t all rest).map fun ws => w :: ws

/-- The program image of a source text, or the first error; no partial output (R94, R95). -/
def assemble (t : OpTable) (source : Text) : Except AsmError (List Word) :=
  let lines := logicalLines source
  assembleLines t (lines.map SourceLine.text) lines

end Sys2Proof.Machine
end

