-- ==== Sys2Proof/Safety.lean ====
section
/-! DEFINITION. The terms claims are made in: what a step leaves unchanged, what it writes, what an exception entry does, the
invariants, and how a run ends. -/

namespace Sys2Proof.Machine

/-! ### Frames -/

/-- Every byte of the stack, every word of the image, the latch and the parameters are as before. -/
def SameBesidesRegs (s t : State) : Prop :=
  (∀ k, t.stackByte k = s.stackByte k) ∧ t.fault = s.fault ∧ (∀ k, t.imageWord k = s.imageWord k) ∧ t.cfg = s.cfg

/-- Every register but those listed reads as before. -/
def RegsSameExcept (s t : State) (ids : List RegId) : Prop := ∀ j, j ∉ ids → t.readReg j = s.readReg j

/-- The whole effect is that register `d` holds `v`: nothing at all if `d` is slot 0, which still reads 0 (R15). -/
def OnlyWrites (s t : State) (d : RegId) (v : Word) : Prop :=
  (∀ j, t.readReg j = if j = 0#7 then 0#64 else if j = d then v else s.readReg j) ∧ SameBesidesRegs s t

/-- The whole effect is a jump to `v`. -/
def OnlyJumps (s t : State) (v : Word) : Prop := OnlyWrites s t ipSlot v

/-- Exception entry (R176): none of the instruction's writes, the first fault latched, `halt` as `EXC_HALTS` says, and
nothing else. -/
def TakesException (s t : State) (e : Exception) : Prop :=
  t.fault = some (s.fault.getD e) ∧ t.halt = s.cfg.excHalts ∧ (∀ k, k ≠ haltBit → t.flag k = s.flag k)
    ∧ RegsSameExcept s t [flagsSlot] ∧ (∀ k, t.stackByte k = s.stackByte k)
    ∧ (∀ k, t.imageWord k = s.imageWord k) ∧ t.cfg = s.cfg

/-- `PUSH_BYTES` bytes of `v`, least significant first, stand above the old top of the stack (R47, R48); the bytes below it
are as before. -/
def Pushes (s t : State) (v : Word) : Prop :=
  t.stack.length = s.stack.length + s.cfg.pushBytes.bytes
    ∧ (∀ k, k < s.stack.length → t.stackByte k = s.stackByte k)
    ∧ ∀ k, k < s.cfg.pushBytes.bytes → t.stackByte (s.stack.length + k) = some (v.extractLsb' (8 * k) 8)

/-- The top `PUSH_BYTES` bytes of the stack are gone and `v` is their little-endian value, zero-extended (R47, R49); the
bytes below them are as before. -/
def Pops (s t : State) (v : Word) : Prop :=
  t.stack.length + s.cfg.pushBytes.bytes = s.stack.length
    ∧ (∀ k, k < t.stack.length → t.stackByte k = s.stackByte k)
    ∧ v.toNat = ((List.range s.cfg.pushBytes.bytes).map fun k =>
        ((s.stackByte (t.stack.length + k)).getD 0).toNat * 2 ^ (8 * k)).sum

/-- The stack has room for one more quantity (R48). -/
def HasRoom (s : State) : Prop := ∀ m, s.cfg.stackMax = some m → s.stack.length + s.cfg.pushBytes.bytes ≤ m

/-- The value of a UNARY operand that has one (R120): a register, or an immediate zero-extended (R73). -/
def OperandValue (s : State) (o : UnaryOperand) (v : Word) : Prop :=
  (∃ reg opt, o = .register reg opt ∧ v = s.readReg reg) ∨ ∃ imm, o = .immediate imm ∧ v.toNat = imm.toNat

/-- The register of a register-mode operand. -/
def operandRegs : UnaryOperand → List RegId
  | .register reg _ => [reg]
  | .pointer _ _ => []
  | .reserved _ => []
  | .immediate _ => []

/-- The registers an instruction writes when it raises nothing (R29); slot 66 where it writes flag bits. -/
def writtenRegs : Instr → List RegId
  | .add f | .sub f | .mul f | .div f | .shr f | .shl f | .and f | .or f | .xor f => [f.rd]
  | .not f => [f.r1]
  | .xchg f => [f.r1, f.r2]
  | .cmp _ => [flagsSlot]
  | .inc o | .dec o | .pop o => operandRegs o
  | .push _ => []
  | .call _ | .jmp _ | .jr _ | .je _ | .jne _ | .ja _ | .jae _ | .jb _ | .jbe _ | .ret => [ipSlot]
  | .hlt => [flagsSlot]
  | .asgn f | .asgnh f | .asgnl f => [f.reg]

/-- What the stack column of R29's table can hold. -/
inductive StackUse where
  | none
  | push
  | pop
  deriving DecidableEq, Repr

/-- The stack column of R29's table. -/
def stackUse : Instr → StackUse
  | .push _ | .call _ => .push
  | .pop _ | .ret => .pop
  | .add _ | .sub _ | .mul _ | .div _ | .shr _ | .shl _ | .and _ | .or _ | .xor _ | .inc _ | .dec _ | .not _ | .xchg _
  | .cmp _ | .jmp _ | .jr _ | .je _ | .jne _ | .ja _ | .jae _ | .jb _ | .jbe _ | .hlt | .asgn _ | .asgnh _ | .asgnl _ => .none

/-- The instructions that use the stack (R29). -/
def usesStack (i : Instr) : Bool := stackUse i != .none

/-- How the stack changes for an entry of that column: nothing, or one quantity of `PUSH_BYTES` bytes more or less at the top
with the bytes below it as before (R48, R49). -/
def StackChanges (s t : State) : StackUse → Prop
  | .none => ∀ k, t.stackByte k = s.stackByte k
  | .push => t.stack.length = s.stack.length + s.cfg.pushBytes.bytes
      ∧ ∀ k, k < s.stack.length → t.stackByte k = s.stackByte k
  | .pop => t.stack.length + s.cfg.pushBytes.bytes = s.stack.length
      ∧ ∀ k, k < t.stack.length → t.stackByte k = s.stackByte k

/-- The flag bits that an instruction writes as a side effect (R21, R29). -/
def sideFlags : Instr → List Nat
  | .cmp _ => [equalBit, aboveBit]
  | .hlt => [haltBit]
  | .add _ | .sub _ | .mul _ | .div _ | .shr _ | .shl _ | .and _ | .or _ | .xor _ | .inc _ | .dec _ | .not _ | .xchg _
  | .call _ | .jmp _ | .jr _ | .je _ | .jne _ | .ja _ | .jae _ | .jb _ | .jbe _ | .push _ | .pop _ | .ret
  | .asgn _ | .asgnh _ | .asgnl _ => []

/-- The registers that an instruction names as a destination (R29): `cmp` and `hlt` write flag bits and name none. -/
def namedRegs (i : Instr) : List RegId := if sideFlags i = [] then writtenRegs i else []

/-- The UNARY instructions (R62), as functions of their operand. -/
def unaryInstrs (o : UnaryOperand) : List Instr := UnaryOp.all.map (UnaryOp.instr o)

/-- The instructions that write back to their operand's register (R121), as functions of their operand. -/
def writeBackInstrs (o : UnaryOperand) : List Instr := [.inc o, .dec o, .pop o]

/-! ### Shapes of single statements -/

/-- The amount that `shl` shifts by (R107, D18): source2, or source1 under `SHL_SOURCE_BUG`. -/
def shlAmount (f : ThreeAddressFields) (s : State) : Word :=
  if s.cfg.shlSourceBug = true then s.readReg f.rs1 else s.readReg f.rs2

/-- A conditional jump: taken, it only jumps; not taken, it changes nothing. -/
def JumpsExactlyIf (s : State) (i : Instr) (v : Word) (taken : Prop) : Prop :=
  ∃ t, exec i s = .next t ∧ (taken → OnlyJumps s t v) ∧ (¬ taken → t = s)

/-- A sequence of pushes (R48), the first of the list first. -/
def pushAll : List (Quantity × Word) → State → Except Exception State
  | [], s => .ok s
  | p :: rest, s =>
    match s.push p.1 p.2 with
    | .ok t => pushAll rest t
    | .error e => .error e

/-- Pops of the given widths, with the values they return in order (R49). -/
def popAll : List Quantity → State → Except Exception (List Word × State)
  | [], s => .ok ([], s)
  | n :: rest, s =>
    match s.pop n with
    | .error e => .error e
    | .ok (v, t) =>
      match popAll rest t with
      | .error e => .error e
      | .ok (vs, u) => .ok (v :: vs, u)

/-! ### What an instruction's word carries without effect (R69, R74) -/

/-- The fields with every addressing flag and option 0. -/
def ThreeAddressFields.plain (f : ThreeAddressFields) : ThreeAddressFields :=
  { f with amd := 0#1, am1 := 0#1, am2 := 0#1, od := 0#10, o1 := 0#10, o2 := 0#10 }

/-- The fields with every addressing flag and option 0. -/
def BinomialFields.plain (f : BinomialFields) : BinomialFields := { f with am1 := 0#1, am2 := 0#1, o1 := 0#20, o2 := 0#20 }

/-- The operand with its option 0; its subtype stays, because it has an effect (R65). -/
def UnaryOperand.plain : UnaryOperand → UnaryOperand
  | .register reg _ => .register reg 0#47
  | .pointer reg _ => .pointer reg 0#47
  | .reserved payload => .reserved payload
  | .immediate imm54 => .immediate imm54

/-- The instruction without what has no effect. -/
def plainInstr : Instr → Instr
  | .add f => .add (ThreeAddressFields.plain f)
  | .sub f => .sub (ThreeAddressFields.plain f)
  | .mul f => .mul (ThreeAddressFields.plain f)
  | .div f => .div (ThreeAddressFields.plain f)
  | .shr f => .shr (ThreeAddressFields.plain f)
  | .shl f => .shl (ThreeAddressFields.plain f)
  | .and f => .and (ThreeAddressFields.plain f)
  | .or f => .or (ThreeAddressFields.plain f)
  | .xor f => .xor (ThreeAddressFields.plain f)
  | .inc o => .inc (UnaryOperand.plain o)
  | .dec o => .dec (UnaryOperand.plain o)
  | .not f => .not (BinomialFields.plain f)
  | .xchg f => .xchg (BinomialFields.plain f)
  | .cmp f => .cmp (BinomialFields.plain f)
  | .call o => .call (UnaryOperand.plain o)
  | .jmp o => .jmp (UnaryOperand.plain o)
  | .jr o => .jr (UnaryOperand.plain o)
  | .je o => .je (UnaryOperand.plain o)
  | .jne o => .jne (UnaryOperand.plain o)
  | .ja o => .ja (UnaryOperand.plain o)
  | .jae o => .jae (UnaryOperand.plain o)
  | .jb o => .jb (UnaryOperand.plain o)
  | .jbe o => .jbe (UnaryOperand.plain o)
  | .push o => .push (UnaryOperand.plain o)
  | .pop o => .pop (UnaryOperand.plain o)
  | .hlt => .hlt
  | .ret => .ret
  | .asgn f => .asgn f
  | .asgnh f => .asgnh f
  | .asgnl f => .asgnl f

/-! ### Invariants -/

/-- Whether the table holds a pair (format code, operation code) (R78). -/
def holdsCode (t : OpTable) (fmt : BitVec 3) (op : BitVec 5) : Bool :=
  match Format.ofCode fmt with
  | some .noOperand => NoOperandOp.all.any fun m => t.noOperandCode m == op
  | some .unary => UnaryOp.all.any fun m => t.unaryCode m == op
  | some .binomial => BinomialOp.all.any fun m => t.binomialCode m == op
  | some .threeAddress => ThreeAddressOp.all.any fun m => t.threeAddressCode m == op
  | some .registerImmediate => RegImmOp.all.any fun m => t.regImmCode m == op
  | none => false

/-- When an instruction raises a cause in the state it is executed in, with the `info` recorded (R171, R174 to R182). The
three causes that no instruction raises have no condition here. The stack conditions are about `PUSH_BYTES` bytes (D10, log
entry 10). -/
def InstrRaises (s : State) (i : Instr) : Exception → Prop
  | .undefinedOperation _ _ => False
  | .undefinedFormat _ => False
  | .unsupportedAddressing reg => ∃ opt, i ∈ unaryInstrs (.pointer reg opt)
  | .reservedAddressingMode => ∃ payload, i ∈ unaryInstrs (.reserved payload)
  | .operandNotWritable => ∃ imm, i ∈ writeBackInstrs (.immediate imm)
  | .divideByZero => s.cfg.div0Policy = .fault ∧ ∃ f, i = .div f ∧ s.readReg f.rs2 = 0#64
  | .shiftOutOfRange amount => s.cfg.shiftPolicy = .fault ∧ 64 ≤ amount.toNat
      ∧ ∃ f, (i = .shr f ∧ amount = s.readReg f.rs2) ∨ (i = .shl f ∧ amount = shlAmount f s)
  | .stackUnderflow len => len = s.stack.length ∧ len < s.cfg.pushBytes.bytes ∧ stackUse i = .pop
  | .stackOverflow len => len = s.stack.length ∧ stackUse i = .push
      ∧ ∃ m, s.cfg.stackMax = some m ∧ m < len + s.cfg.pushBytes.bytes
  | .fetchOutOfRange _ => False

/-- The word that the cycle which raised had fetched: the instruction pointer was incremented after it (R152, R176). -/
def State.lastWord (s : State) : Option Word := s.imageWord (s.ip - 1#64).toNat

/-- The registers as the instruction that raised found them: the entry changed `halt` alone, and `halt` was 0 because a
cycle ran (R151, R176). -/
def State.beforeEntry (s : State) : State := s.setFlag haltBit false

/-- The word fetched last is an instruction that raises the cause in the state it found. -/
def RaisedByInstr (s : State) (e : Exception) : Prop :=
  ∃ w i, s.lastWord = some w ∧ decode s.cfg.optable w = .ok i ∧ InstrRaises s.beforeEntry i e

/-- What the state that an exception entry left must look like for the latch to hold its cause (R171, R176): the word that the
instruction pointer has just passed, and the operands it found, do raise the cause, with the `info` recorded. -/
def CauseHolds (s : State) : Exception → Prop
  | .undefinedOperation fmt op => fmt.toNat ≤ 4 ∧ holdsCode s.cfg.optable fmt op = false
      ∧ ∃ w, s.lastWord = some w ∧ w.extractLsb' 61 3 = fmt ∧ w.extractLsb' 56 5 = op
  | .undefinedFormat fmt => 5 ≤ fmt.toNat ∧ ∃ w, s.lastWord = some w ∧ w.extractLsb' 61 3 = fmt
  | .unsupportedAddressing reg => RaisedByInstr s (.unsupportedAddressing reg)
  | .reservedAddressingMode => RaisedByInstr s .reservedAddressingMode
  | .operandNotWritable => RaisedByInstr s .operandNotWritable
  | .divideByZero => RaisedByInstr s .divideByZero
  | .shiftOutOfRange amount => RaisedByInstr s (.shiftOutOfRange amount)
  | .stackUnderflow len => RaisedByInstr s (.stackUnderflow len)
  | .stackOverflow len => RaisedByInstr s (.stackOverflow len)
  | .fetchOutOfRange ip => ip = s.ip ∧ s.image.length ≤ ip.toNat

/-- The latch tells the truth: where it holds a cause, the cause's condition holds and `halt` is as `EXC_HALTS` says (R151,
R176). -/
def LatchSound (s : State) : Prop := ∀ e, s.fault = some e → CauseHolds s e ∧ s.halt = s.cfg.excHalts

/-! ### How a run ends (R161) -/

/-- The run from `s` ends in `t`, the first state of it that is not RUN. -/
def RunEnds (s t : State) : Prop := ∃ fuel, runLoop fuel s = some t

/-- The run from `s` raised nothing and ends in `t`: a claim about a program names HALTED or END beside it. -/
def RunEndsSafely (s t : State) : Prop := RunEnds s t ∧ t.fault = none

end Sys2Proof.Machine
end

