-- ==== Sys2Proof/Certificates/Slice0/Obligations.lean ====
section
/-! DEFINITION. The statements for the provers. Each docstring names the rules of spec/ it comes from, and says where a
clause rests on one of the spec's own decisions (D<n> of 92_eei_decisions.md). -/

open Sys2Proof Sys2Proof.Machine

/-! ### Encoding -/

/-- One word per format and form, written out from R63 to R68 and R76 (95: V1, V2, V6, V8, V9, V10, V13, V14, V15, `ret`). -/
def Obligations.SpecWordsDecode : Prop :=
  decode OpTable.default 0x6001408300000000#64 = .ok (.add ⟨0, 0, 0, 5, 1, 3, 0, 0, 0⟩)
  ∧ decode OpTable.default 0x604140C000804000#64 = .ok (.add ⟨0, 1, 0, 5, 1, 64, 2, 4, 0⟩)
  ∧ decode OpTable.default 0x4D80840000800001#64 = .ok (.cmp ⟨1, 0, 1, 4, 8, 1⟩)
  ∧ decode OpTable.default 0x2941800000000010#64 = .ok (.inc (.pointer 3 16))
  ∧ decode OpTable.default 0x3703800000000003#64 = .ok (.push (.register 7 3))
  ∧ decode OpTable.default 0x2FC0000000000002#64 = .ok (.jmp (.immediate 2))
  ∧ decode OpTable.default 0x2E80000000000005#64 = .ok (.call (.reserved 5))
  ∧ decode OpTable.default 0x9B81FFFFFFFFFFFF#64 = .ok (.asgn ⟨64, 562949953421311⟩)
  ∧ decode OpTable.default 0x19FFFFFFFFFFFFFF#64 = .ok .hlt
  ∧ decode OpTable.default 0x1A00000000000000#64 = .ok .ret

/-- R72 (a): every field of every format comes back. -/
def Obligations.FieldsSurvivePackAndDecode : Prop := ∀ d : Decoded, d.wf = true → decodeFields (pack d) = d

/-- R72 (b): packing what was decoded clears the unused bits and nothing else. -/
def Obligations.RepackClearsOnlyUnusedBits : Prop := ∀ w : Word, pack (decodeFields w) = w &&& keepMask w

/-- R72 (a) at the level of instructions, under every table in which the instruction is well formed; every instruction is
so under the default table. -/
def Obligations.InstructionsSurviveEncodeAndDecode : Prop :=
  (∀ (t : OpTable) (i : Instr), i.wf t = true → decode t (encode t i) = .ok i)
  ∧ ∀ i : Instr, i.wf OpTable.default = true

/-- The other direction: a word that decodes to an instruction is the word of that instruction but for unused bits (R72 (b),
R75). -/
def Obligations.DecodedWordIsTheInstructionsWord : Prop :=
  ∀ (t : OpTable) (w : Word) (i : Instr), decode t w = .ok i → encode t i = w &&& keepMask w

/-- R75: the bits that belong to no field change nothing. -/
def Obligations.UnusedBitsAreIgnored : Prop := ∀ (t : OpTable) (w : Word), decode t (w &&& keepMask w) = decode t w

/-- R77 (marked there as derived; the codes are D3): 30 of the 256 opcode bytes select an instruction, 96 are an undefined
format, 130 an undefined operation, and the other 56 bits of a word change neither the kind nor the name of a rejection. -/
def Obligations.OpcodeByteMap : Prop :=
  (∀ w : Word,
    ((∃ i, decode OpTable.default w = .ok i) ↔ ∃ i, decode OpTable.default (w.extractLsb' 56 8 ++ 0#56) = .ok i)
    ∧ ∀ r, decode OpTable.default w = .error r ↔ decode OpTable.default (w.extractLsb' 56 8 ++ 0#56) = .error r)
  ∧ ((List.range 256).countP fun b => (decodeTableWord 64 (b * 2 ^ 56)).isSome) = 30
  ∧ ((List.range 256).countP fun b =>
      decide (decode OpTable.default (BitVec.ofNat 64 (b * 2 ^ 56))
        = .error (.undefinedFormat (BitVec.ofNat 3 (b / 32))))) = 96
  ∧ ((List.range 256).countP fun b =>
      decide (decode OpTable.default (BitVec.ofNat 64 (b * 2 ^ 56))
        = .error (.undefinedOperation (BitVec.ofNat 3 (b / 32)) (BitVec.ofNat 5 b)))) = 130

/-- R78, R79 (D20): which words are rejected and by what name, under every table. -/
def Obligations.RejectedWordsByName : Prop :=
  ∀ (t : OpTable) (w : Word),
    (5 ≤ (w.extractLsb' 61 3).toNat → decode t w = .error (.undefinedFormat (w.extractLsb' 61 3)))
    ∧ ((w.extractLsb' 61 3).toNat ≤ 4 →
        ((∃ i, decode t w = .ok i) ↔ holdsCode t (w.extractLsb' 61 3) (w.extractLsb' 56 5) = true)
        ∧ (holdsCode t (w.extractLsb' 61 3) (w.extractLsb' 56 5) = false →
            decode t w = .error (.undefinedOperation (w.extractLsb' 61 3) (w.extractLsb' 56 5))))

/-! ### The binary image -/

/-- R43: the length is the number of whole records, a short trailing record is discarded, no word is appended, and
serialisation and deserialisation are exact inverses. -/
def Obligations.ImageSerialisationRoundTrips : Prop :=
  (∀ ws : List Word, deserialize (serialize ws) = ws)
  ∧ (∀ bytes : List Byte, (deserialize bytes).length = bytes.length / 8)
  ∧ (∀ (ws : List Word) (rest : List Byte), rest.length < 8 → deserialize (serialize ws ++ rest) = ws)
  ∧ ∀ bytes : List Byte, 8 ∣ bytes.length → serialize (deserialize bytes) = bytes

/-- R42: word `i` of the image is the big-endian value of bytes `8i` to `8i+7`. -/
def Obligations.ImageWordsAreBigEndian : Prop :=
  ∀ (s : State) (bytes : List Byte) (i : Nat), i < bytes.length / 8 →
    ∃ w, (s.load bytes).imageWord i = some w
      ∧ w.toNat = ((List.range 8).map fun k => (bytes.getD (8 * i + k) 0#8).toNat * 2 ^ (8 * (7 - k))).sum

/-! ### Reset -/

/-- R30, R190, R192 (the empty stack and the empty latch are D26): every register reads 0, so the flags are clear and the
next fetch is of word 0; image and parameters stay. -/
def Obligations.ResetOperationZeroesState : Prop :=
  ∀ s : State, (∀ i, s.reinit.readReg i = 0#64) ∧ s.reinit.equal = false ∧ s.reinit.above = false
    ∧ s.reinit.halt = false ∧ s.reinit.stack = [] ∧ s.reinit.fault = none ∧ s.reinit.image = s.image
    ∧ s.reinit.cfg = s.cfg ∧ s.reinit.fetch = s.image[0]? ∧ State.reset.reinit = State.reset

/-- The two invariants hold at reset. -/
def Obligations.InvariantsHoldAtReset : Prop := Memory.wf State.reset = true ∧ LatchSound State.reset

/-! ### The cycle -/

/-- R152: a step of a machine that is not stopped, at a word that decodes, is the execution of the instruction on the state
whose instruction pointer is one more. -/
def Obligations.StepRunsDecodedInstruction : Prop :=
  ∀ (s : State) (w : Word) (i : Instr), s.halt = false → s.fault = none → s.image[s.ip.toNat]? = some w →
    decode s.cfg.optable w = .ok i → step s = exec i (s.writeReg ipSlot (s.ip + 1#64))

/-- R152, R172, R173: a step at a word that holds no instruction takes the exception, with the IP increment made. -/
def Obligations.StepAtUndefinedWordRaises : Prop :=
  ∀ (s : State) (w : Word), s.halt = false → s.fault = none → s.image[s.ip.toNat]? = some w →
    ((5 ≤ (w.extractLsb' 61 3).toNat →
        ∃ t, step s = .next t
          ∧ TakesException (s.writeReg ipSlot (s.ip + 1#64)) t (.undefinedFormat (w.extractLsb' 61 3)))
    ∧ ((w.extractLsb' 61 3).toNat ≤ 4 → holdsCode s.cfg.optable (w.extractLsb' 61 3) (w.extractLsb' 56 5) = false →
        ∃ t, step s = .next t
          ∧ TakesException (s.writeReg ipSlot (s.ip + 1#64)) t
              (.undefinedOperation (w.extractLsb' 61 3) (w.extractLsb' 56 5))))

/-- R158, R166 (D25), R151, R163: a cycle in RUN leads where its end state says and reports it; FAULT and HALTED keep their
state and report nothing; END raises, reports, and goes to FAULT with the instruction pointer unchanged; after a reset the
machine is in RUN exactly if an image word exists. -/
def Obligations.RunStateTransitions : Prop :=
  (∀ s : State, s.runState = .run →
    ∃ t, step s = .next t ∧ cycleReport s = some t.dump
      ∧ (t.fault ≠ none → t.runState = .fault)
      ∧ (t.fault = none → t.halt = true → t.runState = .halted)
      ∧ (t.fault = none → t.halt = false → t.image.length ≤ t.ip.toNat → t.runState = .ended)
      ∧ (t.fault = none → t.halt = false → t.ip.toNat < t.image.length → t.runState = .run))
  ∧ (∀ s : State, s.runState = .fault ∨ s.runState = .halted → step s = .next s ∧ cycleReport s = none)
  ∧ (∀ s : State, s.runState = .ended →
      ∃ t, step s = .next t ∧ cycleReport s = some t.dump ∧ TakesException s t (.fetchOutOfRange s.ip)
        ∧ t.runState = .fault ∧ t.ip = s.ip)
  ∧ ∀ s : State, s.reinit.runState = if s.image = [] then .ended else .run

/-- R157: the four states are told apart by latch, halt flag and bound, and each is reached by some state. -/
def Obligations.RunStatesClassified : Prop :=
  ∀ s : State, (s.runState = .fault ↔ s.fault ≠ none)
    ∧ (s.runState = .halted ↔ s.fault = none ∧ s.halt = true)
    ∧ (s.runState = .ended ↔ s.fault = none ∧ s.halt = false ∧ s.image.length ≤ s.ip.toNat)
    ∧ (s.runState = .run ↔ s.fault = none ∧ s.halt = false ∧ s.ip.toNat < s.image.length)

/-- R185, R191: nothing but a reset leaves FAULT or HALTED: any number of cycles keeps the state. -/
def Obligations.StoppedMachineStaysStopped : Prop :=
  ∀ (n : Nat) (s : State), s.halt = true ∨ s.fault ≠ none → Host.Core.run Sys2Proof.core n s = .next s

/-- R160, R161: what the run loop answers is the first state of the run that is not RUN; and where the run has such a state
after `n` cycles, the run loop answers it with any fuel of `n` or more. -/
def Obligations.RunLoopEndsAtFirstStop : Prop :=
  (∀ (fuel : Nat) (s t : State), runLoop fuel s = some t →
    t.runState ≠ .run ∧ ∃ n, n ≤ fuel ∧ Host.Core.run Sys2Proof.core n s = .next t
      ∧ ∀ m, m < n → ∃ u, Host.Core.run Sys2Proof.core m s = .next u ∧ u.runState = .run)
  ∧ ∀ (n fuel : Nat) (s t : State), Host.Core.run Sys2Proof.core n s = .next t → t.runState ≠ .run →
    (∀ m, m < n → ∃ u, Host.Core.run Sys2Proof.core m s = .next u ∧ u.runState = .run) → n ≤ fuel →
    runLoop fuel s = some t

/-- R170, R176: whatever goes wrong is an exception taken to a next state: no step and no instruction ends otherwise. -/
def Obligations.EveryStepAnswersNext : Prop :=
  (∀ s : State, ∃ t, step s = .next t) ∧ ∀ (i : Instr) (s : State), ∃ t, exec i s = .next t

/-- R58: no step writes the image, so what is fetched depends on the instruction pointer alone. That no step writes the
parameters either (R8) is said of the field `cfg`, the model's own place for them (log entry 2, DESIGN CHOICE). -/
def Obligations.ImageIsImmutable : Prop :=
  ∀ s t : State, step s = .next t →
    t.image = s.image ∧ t.cfg = s.cfg ∧ t.fetch = s.image[t.ip.toNat]?

/-! ### Invariants -/

/-- R8, R46, R48: every step keeps the form of the two memories. -/
def Obligations.StepKeepsMemoryForm : Prop :=
  ∀ s t : State, Memory.wf s = true → step s = .next t → Memory.wf t = true

/-- R171, R176, R151 (D19, D29; the stack conditions with `PUSH_BYTES`, D10 and log entry 10): every step keeps the latch
truthful: a latched cause is one that the word just passed does raise, on the operands it found, with the `info` recorded,
and `halt` is as `EXC_HALTS` says. -/
def Obligations.StepKeepsLatchSound : Prop := ∀ s t : State, LatchSound s → step s = .next t → LatchSound t

/-! ### Exceptions -/

/-- R171 (D29): the codes and the recorded values. -/
def Obligations.CauseCodesAndInfo : Prop :=
  (∀ fmt op, (Exception.undefinedOperation fmt op).code = 1
      ∧ (Exception.undefinedOperation fmt op).info = [fmt.toNat, op.toNat])
  ∧ (∀ fmt, (Exception.undefinedFormat fmt).code = 2 ∧ (Exception.undefinedFormat fmt).info = [fmt.toNat])
  ∧ (∀ reg, (Exception.unsupportedAddressing reg).code = 3 ∧ (Exception.unsupportedAddressing reg).info = [reg.toNat])
  ∧ (Exception.reservedAddressingMode.code = 4 ∧ Exception.reservedAddressingMode.info = [2])
  ∧ (Exception.operandNotWritable.code = 5 ∧ Exception.operandNotWritable.info = [3])
  ∧ (Exception.divideByZero.code = 6 ∧ Exception.divideByZero.info = [0])
  ∧ (∀ n, (Exception.shiftOutOfRange n).code = 7 ∧ (Exception.shiftOutOfRange n).info = [n.toNat])
  ∧ (∀ n, (Exception.stackUnderflow n).code = 8 ∧ (Exception.stackUnderflow n).info = [n])
  ∧ (∀ n, (Exception.stackOverflow n).code = 9 ∧ (Exception.stackOverflow n).info = [n])
  ∧ ∀ ip, (Exception.fetchOutOfRange ip).code = 10 ∧ (Exception.fetchOutOfRange ip).info = [ip.toNat]

/-- R176 (D19): what exception entry changes, and that it changes nothing else, in every state and for every cause. -/
def Obligations.ExceptionEntryChangesLatchAndHalt : Prop :=
  ∀ (s : State) (e : Exception), TakesException s (s.raise e) e

/-! ### THREE_ADDRESS -/

/-- R102 (wrap-around is D14): the sum modulo 2^64, and nothing else. -/
def Obligations.AddResult : Prop :=
  ∀ (f : ThreeAddressFields) (s : State), ∃ t v, exec (.add f) s = .next t ∧ OnlyWrites s t f.rd v
    ∧ v.toNat = ((s.readReg f.rs1).toNat + (s.readReg f.rs2).toNat) % 2 ^ 64

/-- R103 (wrap-around is D14): source1 minus source2 modulo 2^64, and nothing else. -/
def Obligations.SubResult : Prop :=
  ∀ (f : ThreeAddressFields) (s : State), ∃ t v, exec (.sub f) s = .next t ∧ OnlyWrites s t f.rd v
    ∧ (v.toNat : Int) = ((s.readReg f.rs1).toNat - (s.readReg f.rs2).toNat : Int) % 2 ^ 64

/-- R104 (D14): the low 64 bits of the product, and nothing else. -/
def Obligations.MulResult : Prop :=
  ∀ (f : ThreeAddressFields) (s : State), ∃ t v, exec (.mul f) s = .next t ∧ OnlyWrites s t f.rd v
    ∧ v.toNat = ((s.readReg f.rs1).toNat * (s.readReg f.rs2).toNat) % 2 ^ 64

/-- R105 (D14): the unsigned truncating quotient of source1 by source2, and nothing else. -/
def Obligations.DivResult : Prop :=
  ∀ (f : ThreeAddressFields) (s : State), s.readReg f.rs2 ≠ 0#64 →
    ∃ t v, exec (.div f) s = .next t ∧ OnlyWrites s t f.rd v
      ∧ v.toNat = (s.readReg f.rs1).toNat / (s.readReg f.rs2).toNat

/-- R105, R178 (D15): a zero divisor raises. -/
def Obligations.DivByZeroRaises : Prop :=
  ∀ (f : ThreeAddressFields) (s : State), s.readReg f.rs2 = 0#64 →
    ∃ t, exec (.div f) s = .next t ∧ TakesException s t .divideByZero

/-- R106 (D14): an amount below 64 shifts right, zero bits entering at the top, and nothing else. -/
def Obligations.ShrResult : Prop :=
  ∀ (f : ThreeAddressFields) (s : State), (s.readReg f.rs2).toNat < 64 →
    ∃ t v, exec (.shr f) s = .next t ∧ OnlyWrites s t f.rd v
      ∧ v.toNat = (s.readReg f.rs1).toNat / 2 ^ (s.readReg f.rs2).toNat

/-- R107 (D14, D18): an amount below 64 shifts left modulo 2^64, zero bits entering at the bottom, and nothing else. -/
def Obligations.ShlResult : Prop :=
  ∀ (f : ThreeAddressFields) (s : State), (shlAmount f s).toNat < 64 →
    ∃ t v, exec (.shl f) s = .next t ∧ OnlyWrites s t f.rd v
      ∧ v.toNat = ((s.readReg f.rs1).toNat * 2 ^ (shlAmount f s).toNat) % 2 ^ 64

/-- R106, R107, R180 (D16): an amount of 64 or more raises, gives 0, or is taken modulo 64, as `SHIFT_POLICY` says. -/
def Obligations.ShiftAmountOutOfRange : Prop :=
  ∀ (f : ThreeAddressFields) (s : State),
    (64 ≤ (s.readReg f.rs2).toNat →
      (s.cfg.shiftPolicy = .fault →
        ∃ t, exec (.shr f) s = .next t ∧ TakesException s t (.shiftOutOfRange (s.readReg f.rs2)))
      ∧ (s.cfg.shiftPolicy = .zero → ∃ t, exec (.shr f) s = .next t ∧ OnlyWrites s t f.rd 0#64)
      ∧ (s.cfg.shiftPolicy = .mod64 → ∃ t v, exec (.shr f) s = .next t ∧ OnlyWrites s t f.rd v
          ∧ v.toNat = (s.readReg f.rs1).toNat / 2 ^ ((s.readReg f.rs2).toNat % 64)))
    ∧ (64 ≤ (shlAmount f s).toNat →
      (s.cfg.shiftPolicy = .fault →
        ∃ t, exec (.shl f) s = .next t ∧ TakesException s t (.shiftOutOfRange (shlAmount f s)))
      ∧ (s.cfg.shiftPolicy = .zero → ∃ t, exec (.shl f) s = .next t ∧ OnlyWrites s t f.rd 0#64)
      ∧ (s.cfg.shiftPolicy = .mod64 → ∃ t v, exec (.shl f) s = .next t ∧ OnlyWrites s t f.rd v
          ∧ v.toNat = ((s.readReg f.rs1).toNat * 2 ^ ((shlAmount f s).toNat % 64)) % 2 ^ 64))

/-- R108, R109, R110: bit by bit, all 64 bits, and nothing else; with the opcode bytes the rules give. -/
def Obligations.AndOrXorResults : Prop :=
  ∀ (f : ThreeAddressFields) (s : State),
    (∃ t v, exec (.and f) s = .next t ∧ OnlyWrites s t f.rd v
      ∧ ∀ k, v.getLsbD k = ((s.readReg f.rs1).getLsbD k && (s.readReg f.rs2).getLsbD k))
    ∧ (∃ t v, exec (.or f) s = .next t ∧ OnlyWrites s t f.rd v
      ∧ ∀ k, v.getLsbD k = ((s.readReg f.rs1).getLsbD k || (s.readReg f.rs2).getLsbD k))
    ∧ (∃ t v, exec (.xor f) s = .next t ∧ OnlyWrites s t f.rd v
      ∧ ∀ k, v.getLsbD k = ((s.readReg f.rs1).getLsbD k != (s.readReg f.rs2).getLsbD k))
    ∧ (encode OpTable.default (.and f)).extractLsb' 56 8 = 0x66#8
    ∧ (encode OpTable.default (.or f)).extractLsb' 56 8 = 0x67#8
    ∧ (encode OpTable.default (.xor f)).extractLsb' 56 8 = 0x68#8

/-! ### BINOMIAL -/

/-- R114: the complement of all 64 bits of operand 2, and nothing else; with its opcode byte. -/
def Obligations.NotResult : Prop :=
  ∀ (f : BinomialFields) (s : State),
    (∃ t v, exec (.not f) s = .next t ∧ OnlyWrites s t f.r1 v ∧ v.toNat = 2 ^ 64 - 1 - (s.readReg f.r2).toNat)
    ∧ (encode OpTable.default (.not f)).extractLsb' 56 8 = 0x4B#8

/-- R115: each slot reads what the other read before, unless they are the same slot; slot 0 still reads 0; nothing else;
with its opcode byte. -/
def Obligations.XchgSwaps : Prop :=
  ∀ (f : BinomialFields) (s : State),
    (∃ t, exec (.xchg f) s = .next t ∧ SameBesidesRegs s t
      ∧ (∀ j, t.readReg j = if j = 0#7 then 0#64 else if j = f.r1 then s.readReg f.r2
          else if j = f.r2 then s.readReg f.r1 else s.readReg j)
      ∧ (f.r1 = f.r2 → t = s))
    ∧ (encode OpTable.default (.xchg f)).extractLsb' 56 8 = 0x4C#8

/-- R116 (unsigned is D14, the two-flag update D17): `equal`, and `above` unless `CMP_SOURCE_BUG`; every other bit of slot 66
and everything else as before. -/
def Obligations.CmpWritesFlags : Prop :=
  ∀ (f : BinomialFields) (s : State), ∃ t, exec (.cmp f) s = .next t ∧ SameBesidesRegs s t
    ∧ RegsSameExcept s t [flagsSlot]
    ∧ (t.equal = true ↔ s.readReg f.r1 = s.readReg f.r2)
    ∧ (s.cfg.cmpSourceBug = false → (t.above = true ↔ (s.readReg f.r2).toNat < (s.readReg f.r1).toNat))
    ∧ (s.cfg.cmpSourceBug = true → t.above = s.above)
    ∧ ∀ k, 2 ≤ k → t.flag k = s.flag k

/-- R117: which conditional jumps a `cmp` makes taken, by the unsigned order of its operands. -/
def Obligations.CmpThenConditions : Prop :=
  ∀ (f : BinomialFields) (s t : State), s.cfg.cmpSourceBug = false → exec (.cmp f) s = .next t →
    (s.readReg f.r1 = s.readReg f.r2 →
      ∀ c : Condition, c.holds t.equal t.above = decide (c = .e ∨ c = .ae ∨ c = .be))
    ∧ ((s.readReg f.r2).toNat < (s.readReg f.r1).toNat →
      ∀ c : Condition, c.holds t.equal t.above = decide (c = .ne ∨ c = .a ∨ c = .ae))
    ∧ ((s.readReg f.r1).toNat < (s.readReg f.r2).toNat →
      ∀ c : Condition, c.holds t.equal t.above = decide (c = .ne ∨ c = .b ∨ c = .be))

/-! ### UNARY -/

/-- R122, R123 (wrap-around is D14): plus or minus one modulo 2^64 on the operand's register, and nothing else. -/
def Obligations.IncDecResults : Prop :=
  ∀ (reg : RegId) (opt : BitVec 47) (s : State),
    (∃ t v, exec (.inc (.register reg opt)) s = .next t ∧ OnlyWrites s t reg v
      ∧ v.toNat = ((s.readReg reg).toNat + 1) % 2 ^ 64)
    ∧ ∃ t v, exec (.dec (.register reg opt)) s = .next t ∧ OnlyWrites s t reg v
      ∧ v.toNat = ((s.readReg reg).toNat + (2 ^ 64 - 1)) % 2 ^ 64

/-- R120, R174, R175 (D21, D22): a pointer or a reserved subtype raises for all thirteen UNARY instructions, before anything
else, a jump that would not be taken included. -/
def Obligations.UnaryOperandWithoutValueRaises : Prop :=
  ∀ s : State,
    (∀ reg opt, ∀ i ∈ unaryInstrs (.pointer reg opt),
      ∃ t, exec i s = .next t ∧ TakesException s t (.unsupportedAddressing reg))
    ∧ ∀ payload, ∀ i ∈ unaryInstrs (.reserved payload),
      ∃ t, exec i s = .next t ∧ TakesException s t .reservedAddressingMode

/-- R121, R177 (D23): an immediate cannot be written back to; the stack stays as it is. -/
def Obligations.WriteBackToImmediateRaises : Prop :=
  ∀ (s : State) (imm : BitVec 54), ∀ i ∈ writeBackInstrs (.immediate imm),
    ∃ t, exec i s = .next t ∧ TakesException s t .operandNotWritable

/-- R125, R126: `jmp` and `jr` set the instruction pointer to the operand's value, and nothing else; with their opcode
bytes. -/
def Obligations.JmpAndJrJump : Prop :=
  ∀ (o : UnaryOperand) (s : State),
    (∀ v, OperandValue s o v → (∃ t, exec (.jmp o) s = .next t ∧ OnlyJumps s t v)
      ∧ ∃ t, exec (.jr o) s = .next t ∧ OnlyJumps s t v)
    ∧ (encode OpTable.default (.jmp o)).extractLsb' 56 8 = 0x2F#8
    ∧ (encode OpTable.default (.jr o)).extractLsb' 56 8 = 0x30#8

/-- R127: the table of the six conditions, over all four values of `equal` and `above`, for every operand that has a value
(R120; an immediate is zero-extended, R73, the spec's decision D12, log entry 9). -/
def Obligations.ConditionalJumpTable : Prop :=
  ∀ (o : UnaryOperand) (s : State) (v : Word), OperandValue s o v →
    JumpsExactlyIf s (.je o) v (s.equal = true)
    ∧ JumpsExactlyIf s (.jne o) v (s.equal = false)
    ∧ JumpsExactlyIf s (.ja o) v (s.above = true)
    ∧ JumpsExactlyIf s (.jae o) v (s.equal = true ∨ s.above = true)
    ∧ JumpsExactlyIf s (.jb o) v (s.equal = false ∧ s.above = false)
    ∧ JumpsExactlyIf s (.jbe o) v (s.above = false)

/-- R124 (`PUSH_BYTES` is D10): with room on the stack, `call` pushes the incremented instruction pointer and jumps to the
operand's value, resolved before; nothing else changes, `sp` included. -/
def Obligations.CallPushesAndJumps : Prop :=
  ∀ (o : UnaryOperand) (s : State) (v : Word), OperandValue s o v → HasRoom s →
    ∃ t, exec (.call o) s = .next t ∧ Pushes s t s.ip ∧ t.ip = v ∧ RegsSameExcept s t [ipSlot]
      ∧ t.fault = s.fault ∧ t.image = s.image ∧ t.cfg = s.cfg

/-- R134, R48 (D10): with room on the stack, `push` puts the operand's value on top; no register changes, `sp` included. -/
def Obligations.PushStoresOnTop : Prop :=
  ∀ (o : UnaryOperand) (s : State) (v : Word), OperandValue s o v → HasRoom s →
    ∃ t, exec (.push o) s = .next t ∧ Pushes s t v ∧ RegsSameExcept s t []
      ∧ t.fault = s.fault ∧ t.image = s.image ∧ t.cfg = s.cfg

/-- R182, R48 (D24): a push past `STACK_MAX` raises, for `push` and for `call`, and nothing is pushed. That both push
`PUSH_BYTES` bytes is D10 and log entry 10. -/
def Obligations.PushPastTheLimitRaises : Prop :=
  ∀ (o : UnaryOperand) (s : State) (v : Word) (m : Nat), OperandValue s o v → s.cfg.stackMax = some m →
    m < s.stack.length + s.cfg.pushBytes.bytes → ∀ i ∈ [Instr.push o, .call o],
      ∃ t, exec i s = .next t ∧ TakesException s t (.stackOverflow s.stack.length)

/-- R135, R49 (D10, D11): with enough bytes on the stack, `pop` moves the top to its register; nothing else changes. -/
def Obligations.PopLoadsFromTop : Prop :=
  ∀ (reg : RegId) (opt : BitVec 47) (s : State), s.cfg.pushBytes.bytes ≤ s.stack.length →
    ∃ t v, exec (.pop (.register reg opt)) s = .next t ∧ Pops s t v
      ∧ (∀ j, t.readReg j = if j = 0#7 then 0#64 else if j = reg then v else s.readReg j)
      ∧ t.fault = s.fault ∧ t.image = s.image ∧ t.cfg = s.cfg

/-- R142, R49 (D10, D11): with enough bytes on the stack, `ret` moves the top to the instruction pointer; nothing else
changes. -/
def Obligations.RetPopsInstructionPointer : Prop :=
  ∀ s : State, s.cfg.pushBytes.bytes ≤ s.stack.length →
    ∃ t, exec .ret s = .next t ∧ Pops s t t.ip ∧ RegsSameExcept s t [ipSlot]
      ∧ t.fault = s.fault ∧ t.image = s.image ∧ t.cfg = s.cfg

/-- R181, R49 (D24): too few bytes on the stack raise, for `pop` and for `ret`, and nothing is removed. R181 says 8 bytes;
that both take `PUSH_BYTES` bytes is D10 and log entry 10. -/
def Obligations.PopOfTooFewBytesRaises : Prop :=
  ∀ (reg : RegId) (opt : BitVec 47) (s : State), s.stack.length < s.cfg.pushBytes.bytes →
    ∀ i ∈ [Instr.pop (.register reg opt), .ret],
      ∃ t, exec i s = .next t ∧ TakesException s t (.stackUnderflow s.stack.length)

/-- R50: pops in reverse order return what the pushes of mixed widths put there, and leave the stack as it was. -/
def Obligations.StackDiscipline : Prop :=
  ∀ (pushes : List (Quantity × Word)) (s t : State), pushAll pushes s = .ok t →
    popAll (pushes.reverse.map Prod.fst) t
      = .ok (pushes.reverse.map fun p => BitVec.ofNat 64 (p.2.toNat % 2 ^ (8 * p.1.bytes)), s)

/-! ### NO_OPERAND and REGISTER_IMMEDIATE -/

/-- R141: `hlt` sets `halt`; the other bits of slot 66 and everything else as before; every later cycle is a no-op, the run
loop stops, and the machine is HALTED if no fault is latched; with its canonical word. -/
def Obligations.HltSetsHalt : Prop :=
  (∀ s : State, ∃ t, exec .hlt s = .next t ∧ SameBesidesRegs s t ∧ RegsSameExcept s t [flagsSlot]
    ∧ t.halt = true ∧ (∀ k, k ≠ haltBit → t.flag k = s.flag k) ∧ (s.fault = none → t.runState = .halted)
    ∧ step t = .next t ∧ runLoop 0 t = some t)
  ∧ encode OpTable.default .hlt = 0x1900000000000000#64

/-- R146, R147, R148 (D12, D13): the register becomes the zero-extended immediate, or has one half replaced by
`imm49[31:0]`; nothing else. -/
def Obligations.AsgnFamilyResults : Prop :=
  ∀ (f : RegImmFields) (s : State),
    (∃ t v, exec (.asgn f) s = .next t ∧ OnlyWrites s t f.reg v ∧ v.toNat = f.imm49.toNat)
    ∧ (∃ t v, exec (.asgnh f) s = .next t ∧ OnlyWrites s t f.reg v
      ∧ v.toNat = (f.imm49.toNat % 2 ^ 32) * 2 ^ 32 + (s.readReg f.reg).toNat % 2 ^ 32)
    ∧ ∃ t v, exec (.asgnl f) s = .next t ∧ OnlyWrites s t f.reg v
      ∧ v.toNat = (s.readReg f.reg).toNat / 2 ^ 32 * 2 ^ 32 + f.imm49.toNat % 2 ^ 32

/-- R149: `asgnl` and `asgnh`, in either order, build any 64-bit constant in any register but slot 0, whatever it held and
whatever the upper immediate bits are. -/
def Obligations.ConstantFromTwoHalves : Prop :=
  ∀ (K : Word) (lo hi : RegImmFields) (s t u : State), lo.reg ≠ 0#7 → hi.reg = lo.reg →
    lo.imm49.extractLsb' 0 32 = K.extractLsb' 0 32 → hi.imm49.extractLsb' 0 32 = K.extractLsb' 32 32 →
    (exec (.asgnl lo) s = .next t → exec (.asgnh hi) t = .next u → u.readReg lo.reg = K)
    ∧ (exec (.asgnh hi) s = .next t → exec (.asgnl lo) t = .next u → u.readReg lo.reg = K)

/-! ### Whole-machine rules -/

/-- R29 (marked there as derived; `PUSH_BYTES` for its 8 bytes is D10 and log entry 10): an instruction either takes an
exception or writes no register but those the table gives it, no flag bit but those the table gives it or a named
destination brings with it, pushes or pops one quantity exactly if the table says so, and writes neither latch, image nor
parameters. -/
def Obligations.InstructionsWriteOnlyWhatTheTableSays : Prop :=
  ∀ (i : Instr) (s t : State), exec i s = .next t →
    (∃ e, TakesException s t e)
    ∨ (RegsSameExcept s t (writtenRegs i) ∧ (flagsSlot ∉ namedRegs i → ∀ k, k ∉ sideFlags i → t.flag k = s.flag k)
        ∧ StackChanges s t (stackUse i) ∧ t.fault = s.fault ∧ (∀ k, t.imageWord k = s.imageWord k) ∧ t.cfg = s.cfg)

/-- R21: the flags change as a side effect of `cmp`, `hlt` and exception entry alone; any other instruction changes them only
by naming slot 66 as its destination. -/
def Obligations.OnlyCmpHltAndExceptionsWriteFlags : Prop :=
  ∀ (i : Instr) (s t : State), exec i s = .next t → (∀ f, i ≠ .cmp f) → i ≠ .hlt → flagsSlot ∉ writtenRegs i →
    (∃ e, TakesException s t e) ∨ ∀ k, t.flag k = s.flag k

/-- R22, R23 (D8): the stack operations leave `sp` and `bp` alone; only an instruction that names them writes them. -/
def Obligations.StackOperationsLeaveSpAndBp : Prop :=
  ∀ (i : Instr) (s t : State), exec i s = .next t →
    (67#7 ∉ writtenRegs i → t.readReg 67#7 = s.readReg 67#7)
    ∧ (68#7 ∉ writtenRegs i → t.readReg 68#7 = s.readReg 68#7)

/-- R15 (D7): an instruction that uses no stack and whose every destination is slot 0 takes an exception or changes nothing
at all. -/
def Obligations.WritesToSlotZeroAreDiscarded : Prop :=
  ∀ (i : Instr) (s t : State), exec i s = .next t → writtenRegs i ≠ [] → (∀ j ∈ writtenRegs i, j = 0#7) →
    usesStack i = false → (∃ e, TakesException s t e) ∨ t = s

/-- R69, R74: no option and, in the formats BINOMIAL and THREE_ADDRESS, no addressing flag changes what an instruction
does. -/
def Obligations.OptionsAndFlagsHaveNoEffect : Prop := ∀ (i : Instr) (s : State), exec (plainInstr i) s = exec i s

/-! ### Pseudo-instructions -/

/-- R85: the pseudo-instructions assemble to the words of their rewrites, and do what the table says. -/
def Obligations.PseudoInstructions : Prop :=
  assemble OpTable.default "nop".toList = assemble OpTable.default "xchg r0,r0".toList
  ∧ assemble OpTable.default "nop".toList = .ok [0x4C00000000000000#64]
  ∧ assemble OpTable.default "raise".toList = .ok [0x4D00000000000000#64]
  ∧ assemble OpTable.default "mov rs0,rs1".toList = assemble OpTable.default "add rs0,rs1,r0".toList
  ∧ assemble OpTable.default "mov rs0,rs1".toList = .ok [0x6000418000000000#64]
  ∧ (∀ s : State, exec (.xchg ⟨0, 0, 0, 0, 0, 0⟩) s = .next s)
  ∧ (∀ s : State, ∃ t, exec (.cmp ⟨0, 0, 0, 0, 0, 0⟩) s = .next t ∧ t.equal = true
      ∧ (s.cfg.cmpSourceBug = false → t.above = false))
  ∧ ∀ (d r : RegId) (s : State), ∃ t, exec (.add ⟨0, 0, 0, d, r, 0, 0, 0, 0⟩) s = .next t ∧ OnlyWrites s t d (s.readReg r)
end

