-- ==== Sys2Proof/Laws/Decode.lean ====
section
/-! SUPPORT. The fields of a concatenation, and the decoder's lookup in `OPTABLE`, said once. -/

namespace Sys2Proof

/-- A field above the last piece of a concatenation lies in the rest. -/
theorem extract_append_above {a m lo n : Nat} (x : BitVec a) (y : BitVec m) (h : m ≤ lo) :
    (x ++ y).extractLsb' lo n = x.extractLsb' (lo - m) n := by
  ext i hi
  simp only [BitVec.getElem_extractLsb', BitVec.getLsbD_append]
  rw [if_neg (by omega)]
  congr 1
  omega

/-- The field that is the last piece of a concatenation. -/
theorem extract_append_last {a m : Nat} (x : BitVec a) (y : BitVec m) : (x ++ y).extractLsb' 0 m = y := by
  ext i hi
  simp [BitVec.getElem_extractLsb', BitVec.getLsbD_append, hi]

/-- A lookup that succeeds finds an operation with that code. -/
theorem code_of_opOfCode {α : Type} {code : α → BitVec 5} {all : List α} {op : BitVec 5} {m : α}
    (h : opOfCode code all op = some m) : code m = op := by
  simpa using List.find?_some h

/-- A lookup fails exactly when no operation has the code. -/
theorem opOfCode_eq_none {α : Type} {code : α → BitVec 5} {all : List α} {op : BitVec 5} :
    opOfCode code all op = none ↔ (all.any fun m => code m == op) = false := by
  simp [opOfCode]

/-- The lookup of a code that is unique finds the operation that has it. -/
theorem opOfCode_unique {α : Type} [DecidableEq α] {code : α → BitVec 5} {all : List α} {m : α} (hm : m ∈ all)
    (h : codeIsUnique code all m = true) : opOfCode code all (code m) = some m := by
  cases hf : opOfCode code all (code m) with
  | none =>
    have := opOfCode_eq_none.1 hf
    simp only [List.any_eq_false] at this
    exact absurd (by simp) (this m hm)
  | some m' =>
    have hc := code_of_opOfCode hf
    have hin : m' ∈ all := List.mem_of_find?_eq_some hf
    simp only [codeIsUnique, List.all_eq_true] at h
    simpa [hc] using h m' hin

theorem ThreeAddressOp.mem_all (m : ThreeAddressOp) : m ∈ ThreeAddressOp.all := by cases m <;> decide

theorem UnaryOp.mem_all (m : UnaryOp) : m ∈ UnaryOp.all := by cases m <;> decide

theorem BinomialOp.mem_all (m : BinomialOp) : m ∈ BinomialOp.all := by cases m <;> decide

theorem NoOperandOp.mem_all (m : NoOperandOp) : m ∈ NoOperandOp.all := by cases m <;> decide

theorem RegImmOp.mem_all (m : RegImmOp) : m ∈ RegImmOp.all := by cases m <;> decide

@[simp] theorem Format.ofCode_code (f : Format) : Format.ofCode f.code = some f := by cases f <;> rfl

end Sys2Proof
end

