-- ==== Sys2Proof/Laws/State.lean ====
section
/-! SUPPORT. One lemma per field per update of the state. -/

namespace Sys2Proof.Machine

@[simp] theorem State.writeReg_stack (s : State) (i : RegId) (v : Word) : (s.writeReg i v).stack = s.stack := by
  unfold State.writeReg; split <;> rfl

@[simp] theorem State.writeReg_fault (s : State) (i : RegId) (v : Word) : (s.writeReg i v).fault = s.fault := by
  unfold State.writeReg; split <;> rfl

@[simp] theorem State.writeReg_image (s : State) (i : RegId) (v : Word) : (s.writeReg i v).image = s.image := by
  unfold State.writeReg; split <;> rfl

@[simp] theorem State.writeReg_cfg (s : State) (i : RegId) (v : Word) : (s.writeReg i v).cfg = s.cfg := by
  unfold State.writeReg; split <;> rfl

@[simp] theorem State.setIp_stack (s : State) (v : Word) : (s.setIp v).stack = s.stack := s.writeReg_stack _ v

@[simp] theorem State.setIp_fault (s : State) (v : Word) : (s.setIp v).fault = s.fault := s.writeReg_fault _ v

@[simp] theorem State.setIp_image (s : State) (v : Word) : (s.setIp v).image = s.image := s.writeReg_image _ v

@[simp] theorem State.setIp_cfg (s : State) (v : Word) : (s.setIp v).cfg = s.cfg := s.writeReg_cfg _ v

@[simp] theorem State.advance_stack (s : State) : s.advance.stack = s.stack := s.setIp_stack _

@[simp] theorem State.advance_fault (s : State) : s.advance.fault = s.fault := s.setIp_fault _

@[simp] theorem State.advance_image (s : State) : s.advance.image = s.image := s.setIp_image _

@[simp] theorem State.advance_cfg (s : State) : s.advance.cfg = s.cfg := s.setIp_cfg _

@[simp] theorem State.setFlag_stack (s : State) (k : Nat) (b : Bool) : (s.setFlag k b).stack = s.stack :=
  s.writeReg_stack _ _

@[simp] theorem State.setFlag_fault (s : State) (k : Nat) (b : Bool) : (s.setFlag k b).fault = s.fault :=
  s.writeReg_fault _ _

@[simp] theorem State.setFlag_image (s : State) (k : Nat) (b : Bool) : (s.setFlag k b).image = s.image :=
  s.writeReg_image _ _

@[simp] theorem State.setFlag_cfg (s : State) (k : Nat) (b : Bool) : (s.setFlag k b).cfg = s.cfg := s.writeReg_cfg _ _

@[simp] theorem State.raise_stack (s : State) (e : Exception) : (s.raise e).stack = s.stack := by
  unfold State.raise; cases h : s.fault <;> simp

@[simp] theorem State.raise_image (s : State) (e : Exception) : (s.raise e).image = s.image := by
  unfold State.raise; cases h : s.fault <;> simp

@[simp] theorem State.raise_cfg (s : State) (e : Exception) : (s.raise e).cfg = s.cfg := by
  unfold State.raise; cases h : s.fault <;> simp

/-- The latch keeps the first fault (R176). -/
@[simp] theorem State.raise_fault (s : State) (e : Exception) : (s.raise e).fault = some (s.fault.getD e) := by
  unfold State.raise; cases h : s.fault <;> simp [h]

@[simp] theorem State.load_regs (s : State) (b : List Byte) : (s.load b).regs = s.regs := rfl

@[simp] theorem State.load_stack (s : State) (b : List Byte) : (s.load b).stack = s.stack := rfl

@[simp] theorem State.load_fault (s : State) (b : List Byte) : (s.load b).fault = s.fault := rfl

@[simp] theorem State.load_image (s : State) (b : List Byte) : (s.load b).image = deserialize b := rfl

@[simp] theorem State.load_cfg (s : State) (b : List Byte) : (s.load b).cfg = s.cfg := rfl

@[simp] theorem State.reinit_stack (s : State) : s.reinit.stack = [] := rfl

@[simp] theorem State.reinit_fault (s : State) : s.reinit.fault = none := rfl

@[simp] theorem State.reinit_image (s : State) : s.reinit.image = s.image := rfl

@[simp] theorem State.reinit_cfg (s : State) : s.reinit.cfg = s.cfg := rfl

end Sys2Proof.Machine
end

