-- ==== Sys2Proof/Laws/Ops.lean ====
section
/-! SUPPORT. For each named operation over the state, what it does, said once: registers, flags, exception entry, stack. -/

namespace Sys2Proof.Machine

/-! ### Registers -/

@[simp] theorem State.readReg_zero (s : State) : s.readReg 0#7 = 0#64 := rfl

@[simp] theorem State.writeReg_zero (s : State) (v : Word) : s.writeReg 0#7 v = s := rfl

theorem State.readReg_writeReg (s : State) (i j : RegId) (v : Word) :
    (s.writeReg i v).readReg j = if j = 0#7 then 0#64 else if j = i then v else s.readReg j := by
  unfold State.readReg State.writeReg
  by_cases hj : j = 0#7
  · simp [hj]
  · by_cases hij : j = i
    · subst hij; simp [hj]
    · have hne : i.toNat ≠ j.toNat := fun h => hij (BitVec.eq_of_toNat_eq h.symm)
      by_cases hi : i = 0#7 <;> simp [hj, hij, hi, hne]

@[simp] theorem State.readReg_writeReg_self (s : State) {i : RegId} (h : i ≠ 0#7) (v : Word) :
    (s.writeReg i v).readReg i = v := by simp [State.readReg_writeReg, h]

@[simp] theorem State.readReg_writeReg_ne (s : State) {i j : RegId} (h : j ≠ i) (v : Word) :
    (s.writeReg i v).readReg j = s.readReg j := by
  simp only [State.readReg_writeReg, h, if_false]
  split
  · next h0 => simp [h0]
  · rfl

theorem State.readReg_congr {s t : State} (h : t.regs = s.regs) (j : RegId) : t.readReg j = s.readReg j := by
  simp [State.readReg, h]

@[simp] theorem State.readReg_setStack (s : State) (b : List Byte) (j : RegId) :
    State.readReg { s with stack := b } j = s.readReg j := rfl

@[simp] theorem State.readReg_setFault (s : State) (f : Option Exception) (j : RegId) :
    State.readReg { s with fault := f } j = s.readReg j := rfl

@[simp] theorem State.readReg_setImage (s : State) (w : List Word) (j : RegId) :
    State.readReg { s with image := w } j = s.readReg j := rfl

@[simp] theorem State.readReg_reinit (s : State) (j : RegId) : s.reinit.readReg j = 0#64 := by
  simp [State.readReg, State.reinit, State.reset]

@[simp] theorem State.ip_setIp (s : State) (v : Word) : (s.setIp v).ip = v :=
  s.readReg_writeReg_self (by decide) v

/-! ### Flags -/

theorem getLsbD_setBit (w : Word) (k j : Nat) (b : Bool) :
    (setBit w k b).getLsbD j = if j = k ∧ j < 64 then b else w.getLsbD j := by
  unfold setBit
  by_cases hj : j < 64
  · by_cases hk : j = k
    · subst hk; cases b <;> simp [hj]
    · cases b <;> simp [hj, hk]
  · have h1 : w.getLsbD j = false := BitVec.getLsbD_of_ge w j (by omega)
    cases b
    · simp [hj, h1]
    · simp [hj, h1]
      omega

/-- Bit `j` of the flags word after bit `k` of it is written. -/
theorem State.flag_setFlag (s : State) (k j : Nat) (b : Bool) :
    (s.setFlag k b).flag j = if j = k ∧ j < 64 then b else s.flag j := by
  unfold State.setFlag State.flag
  rw [State.readReg_writeReg_self _ (by decide), getLsbD_setBit]

@[simp] theorem State.readReg_setFlag_ne (s : State) (k : Nat) (b : Bool) {j : RegId} (h : j ≠ flagsSlot) :
    (s.setFlag k b).readReg j = s.readReg j := s.readReg_writeReg_ne h _

/-! ### Exception entry -/

@[simp] theorem State.readReg_raise_ne (s : State) (e : Exception) {j : RegId} (h : j ≠ flagsSlot) :
    (s.raise e).readReg j = s.readReg j := by
  unfold State.raise; cases s.fault <;> simp [h]

/-- Every bit of the flags word after exception entry. -/
theorem State.flag_raise (s : State) (e : Exception) (k : Nat) :
    (s.raise e).flag k = if k = haltBit then s.cfg.excHalts else s.flag k := by
  unfold State.raise
  cases s.fault <;> simp only [State.flag_setFlag]
  all_goals
    by_cases hk : k = haltBit
    · subst hk; simp [haltBit]
    · simp [hk, State.flag]

@[simp] theorem State.halt_raise (s : State) (e : Exception) : (s.raise e).halt = s.cfg.excHalts := by
  simp [State.halt, State.flag_raise]

/-! ### The stack -/

theorem Quantity.bytes_cases (n : Quantity) : n.bytes = 1 ∨ n.bytes = 2 ∨ n.bytes = 4 ∨ n.bytes = 8 := by
  cases n <;> simp [Quantity.bytes]

@[simp] theorem leBytes_length (n : Nat) (v : Word) : (leBytes n v).length = n := by simp [leBytes]

/-- The lowest byte, then the bytes of the rest. -/
theorem leBytes_succ (n : Nat) (v : Word) : leBytes (n + 1) v = v.extractLsb' 0 8 :: leBytes n (v >>> 8) := by
  unfold leBytes
  rw [List.range_succ_eq_map, List.map_cons, List.map_map]
  congr 1
  apply List.map_congr_left
  intro k _
  ext i hi
  simp only [Function.comp, BitVec.getElem_extractLsb', BitVec.getLsbD_ushiftRight]
  congr 1
  omega

/-- One more byte below the others. -/
theorem leValue_cons_toNat (b : Byte) (bytes : List Byte) (h : (leValue bytes).toNat < 2 ^ 56) :
    (leValue (b :: bytes)).toNat = (leValue bytes).toNat * 256 + b.toNat := by
  have hb := b.isLt
  have e : leValue (b :: bytes) = (leValue bytes <<< 8) ||| b.setWidth 64 := rfl
  rw [e, BitVec.toNat_or, BitVec.toNat_shiftLeft, BitVec.toNat_setWidth, Nat.mod_eq_of_lt (a := b.toNat) (by omega),
    Nat.mod_eq_of_lt (by rw [Nat.shiftLeft_eq]; omega), ← Nat.shiftLeft_add_eq_or_of_lt hb, Nat.shiftLeft_eq]

/-- Reading back what was written (R47): the low `n` bytes, zero-extended. -/
theorem leValue_leBytes_toNat {n : Nat} (h : n ≤ 8) (v : Word) :
    (leValue (leBytes n v)).toNat = v.toNat % 2 ^ (8 * n) := by
  induction n generalizing v with
  | zero => simp [leBytes, leValue, Nat.mod_one]
  | succ n ih =>
    have hn := ih (by omega) (v >>> 8)
    have hp : 2 ^ (8 * n) ≤ 2 ^ 56 := Nat.pow_le_pow_right (by decide) (by omega)
    have hlt : (v >>> 8).toNat % 2 ^ (8 * n) < 2 ^ (8 * n) := Nat.mod_lt _ (Nat.two_pow_pos _)
    rw [leBytes_succ, leValue_cons_toNat _ _ (by omega), hn]
    have e : 2 ^ (8 * (n + 1)) = 256 * 2 ^ (8 * n) := by rw [Nat.mul_add, Nat.pow_add, Nat.mul_comm]
    rw [e, Nat.mod_mul, BitVec.toNat_ushiftRight, Nat.shiftRight_eq_div_pow]
    simp only [BitVec.extractLsb'_toNat, Nat.shiftRight_zero, Nat.reducePow]
    omega
/-- `MemWrite` at the end of the stack lengthens it (R48). -/
@[simp] theorem memWrite_end (stack : List Byte) (n : Nat) (v : Word) :
    memWrite stack stack.length n v = stack ++ leBytes n v := by simp [memWrite]

/-- What `Push` can do (R48). -/
theorem State.push_cases (s : State) (n : Quantity) (v : Word) :
    (fitsStack s.cfg.stackMax (s.stack.length + n.bytes) = true
      ∧ s.push n v = .ok { s with stack := s.stack ++ leBytes n.bytes v })
    ∨ (fitsStack s.cfg.stackMax (s.stack.length + n.bytes) = false
      ∧ s.push n v = .error (.stackOverflow s.stack.length)) := by
  unfold State.push
  cases h : fitsStack s.cfg.stackMax (s.stack.length + n.bytes) <;> simp [h]

/-- What `Pop` can do (R49). -/
theorem State.pop_cases (s : State) (n : Quantity) :
    (n.bytes ≤ s.stack.length
      ∧ s.pop n = .ok (leValue (s.stack.drop (s.stack.length - n.bytes)),
          { s with stack := s.stack.take (s.stack.length - n.bytes) }))
    ∨ (s.stack.length < n.bytes ∧ s.pop n = .error (.stackUnderflow s.stack.length)) := by
  unfold State.pop
  by_cases h : s.stack.length < n.bytes
  · simp [h]
  · have h' : n.bytes ≤ s.stack.length := by omega
    refine .inl ⟨h', ?_⟩
    simp only [h, if_false, memRead]
    rw [List.take_of_length_le (by simp; omega)]

/-! ### The form of the two memories -/

theorem Memory.wf_iff (s : State) : Memory.wf s = true ↔
    s.image.length < 2 ^ 64 ∧ fitsStack s.cfg.stackMax s.stack.length = true
      ∧ s.cfg.pushBytes.bytes ∣ s.stack.length := by
  simp [Memory.wf, and_assoc]

/-- The form depends on the image, the stack and the parameters alone. -/
theorem Memory.wf_congr {s t : State} (hi : t.image = s.image) (hs : t.stack = s.stack) (hc : t.cfg = s.cfg) :
    Memory.wf t = Memory.wf s := by simp [Memory.wf, hi, hs, hc]

theorem fitsStack_mono {m : Option Nat} {a b : Nat} (hab : a ≤ b) (h : fitsStack m b = true) : fitsStack m a = true := by
  cases m with
  | none => rfl
  | some m => simp only [fitsStack, decide_eq_true_eq] at *; omega

/-- `Push` of a `PUSH_BYTES` quantity keeps the form. -/
theorem State.push_keeps_wf {s t : State} {v : Word} (hp : s.push s.cfg.pushBytes v = .ok t)
    (h : Memory.wf s = true) : Memory.wf t = true := by
  obtain ⟨hi, hf, hd⟩ := (Memory.wf_iff s).1 h
  obtain ⟨hfit, heq⟩ | ⟨-, heq⟩ := s.push_cases s.cfg.pushBytes v
  · rw [heq] at hp
    cases hp
    exact (Memory.wf_iff _).2 ⟨hi, by simpa using hfit, by simpa using hd⟩
  · rw [heq] at hp
    cases hp

/-- `Pop` of a `PUSH_BYTES` quantity keeps the form. -/
theorem State.pop_keeps_wf {s : State} {p : Word × State} (hp : s.pop s.cfg.pushBytes = .ok p)
    (h : Memory.wf s = true) : Memory.wf p.2 = true := by
  obtain ⟨hi, hf, hd⟩ := (Memory.wf_iff s).1 h
  obtain ⟨hle, heq⟩ | ⟨-, heq⟩ := s.pop_cases s.cfg.pushBytes
  · rw [heq] at hp
    cases hp
    refine (Memory.wf_iff _).2 ⟨hi, ?_, ?_⟩
    · exact fitsStack_mono (by simp) hf
    · simpa using Nat.dvd_sub hd (Nat.dvd_refl _)
  · rw [heq] at hp
    cases hp

/-- Resetting keeps the form. -/
theorem State.reinit_keeps_wf (s : State) (h : Memory.wf s = true) : Memory.wf s.reinit = true := by
  obtain ⟨hi, -, -⟩ := (Memory.wf_iff s).1 h
  refine (Memory.wf_iff _).2 ⟨hi, ?_, by simp⟩
  simp only [State.reinit_cfg, State.reinit_stack, List.length_nil]
  cases hm : s.cfg.stackMax <;> simp [fitsStack]

theorem State.reset_wf : Memory.wf State.reset = true := by decide

end Sys2Proof.Machine
end

