-- ==== Sys2Proof/Laws/Operands.lean ====
section
/-! SUPPORT. What each operand form and each shared shape of an instruction can do, said once; and the frames of the
operations in the terms of `Sys2Proof.Safety`. -/

namespace Sys2Proof.Machine

/-! ### Shapes -/

@[simp] theorem State.orRaise_ok (s t : State) : s.orRaise (.ok t) = .next t := rfl

@[simp] theorem State.orRaise_error (s : State) (e : Exception) : s.orRaise (.error e) = .next (s.raise e) := rfl

/-- What an operation that may raise answers. -/
theorem State.orRaise_cases {s t : State} {r : Except Exception State} (h : s.orRaise r = .next t) :
    r = .ok t ∨ ∃ e, r = .error e ∧ t = s.raise e := by
  cases r with
  | ok u => cases h; exact .inl rfl
  | error e => cases h; exact .inr ⟨e, rfl, rfl⟩

/-- What a THREE_ADDRESS instruction can do (R101). -/
theorem State.threeAddress_cases {s t : State} {f : ThreeAddressFields} {op : Word → Word → Except Exception Word}
    (h : s.threeAddress f op = .next t) :
    (∃ r, op (s.readReg f.rs1) (s.readReg f.rs2) = .ok r ∧ t = s.writeReg f.rd r)
    ∨ ∃ e, op (s.readReg f.rs1) (s.readReg f.rs2) = .error e ∧ t = s.raise e := by
  unfold State.threeAddress at h
  cases hop : op (s.readReg f.rs1) (s.readReg f.rs2) with
  | ok r => rw [hop] at h; cases h; exact .inl ⟨r, rfl, rfl⟩
  | error e => rw [hop] at h; cases h; exact .inr ⟨e, rfl, rfl⟩

/-- What `inc` and `dec` can do (R121 to R123). -/
theorem State.modify_cases {s t : State} {o : UnaryOperand} {f : Word → Word} (h : s.modify o f = .next t) :
    (∃ reg opt, o = .register reg opt ∧ t = s.writeReg reg (f (s.readReg reg)))
    ∨ ∃ e, writeBackReg o = .error e ∧ t = s.raise e := by
  cases o with
  | register reg opt => cases h; exact .inl ⟨reg, opt, rfl, rfl⟩
  | pointer reg opt => cases h; exact .inr ⟨_, rfl, rfl⟩
  | reserved payload => cases h; exact .inr ⟨_, rfl, rfl⟩
  | immediate imm54 => cases h; exact .inr ⟨_, rfl, rfl⟩

/-- What a jump can do (R120, R127). -/
theorem State.jumpIf_cases {s t : State} {taken : Bool} {o : UnaryOperand} (h : s.jumpIf taken o = .next t) :
    (∃ v, s.resolve o = .ok v ∧ t = if taken then s.setIp v else s) ∨ ∃ e, s.resolve o = .error e ∧ t = s.raise e := by
  unfold State.jumpIf at h
  cases ho : s.resolve o with
  | ok v => rw [ho] at h; cases h; exact .inl ⟨v, rfl, rfl⟩
  | error e => rw [ho] at h; cases h; exact .inr ⟨e, rfl, rfl⟩

/-- What `call` can do (R124). -/
theorem execCall_cases {s t : State} {o : UnaryOperand} (h : execCall o s = .next t) :
    (∃ v u, s.resolve o = .ok v ∧ s.push s.cfg.pushBytes s.ip = .ok u ∧ t = u.setIp v)
    ∨ ∃ e, (s.resolve o = .error e ∨ s.push s.cfg.pushBytes s.ip = .error e) ∧ t = s.raise e := by
  unfold execCall at h
  cases ho : s.resolve o with
  | error e => rw [ho] at h; cases h; exact .inr ⟨e, .inl rfl, rfl⟩
  | ok v =>
    cases hp : s.push s.cfg.pushBytes s.ip with
    | error e => rw [ho] at h; simp only [bind, Except.bind, hp] at h; cases h; exact .inr ⟨e, .inr rfl, rfl⟩
    | ok u => rw [ho] at h; simp only [bind, Except.bind, hp] at h; cases h; exact .inl ⟨v, u, rfl, rfl, rfl⟩

/-- What `push` can do (R134). -/
theorem execPush_cases {s t : State} {o : UnaryOperand} (h : execPush o s = .next t) :
    (∃ v, s.resolve o = .ok v ∧ s.push s.cfg.pushBytes v = .ok t)
    ∨ ∃ e, (s.resolve o = .error e ∨ ∃ v, s.push s.cfg.pushBytes v = .error e) ∧ t = s.raise e := by
  unfold execPush at h
  cases ho : s.resolve o with
  | error e => rw [ho] at h; cases h; exact .inr ⟨e, .inl rfl, rfl⟩
  | ok v =>
    rw [ho] at h
    obtain hp | ⟨e, hp, rfl⟩ := State.orRaise_cases h
    · exact .inl ⟨v, rfl, hp⟩
    · exact .inr ⟨e, .inr ⟨v, hp⟩, rfl⟩

/-- What `pop` can do (R135). -/
theorem execPop_cases {s t : State} {o : UnaryOperand} (h : execPop o s = .next t) :
    (∃ reg opt p, o = .register reg opt ∧ s.pop s.cfg.pushBytes = .ok p ∧ t = p.2.writeReg reg p.1)
    ∨ ∃ e, (writeBackReg o = .error e ∨ s.pop s.cfg.pushBytes = .error e) ∧ t = s.raise e := by
  unfold execPop at h
  cases o with
  | pointer reg opt => cases h; exact .inr ⟨_, .inl rfl, rfl⟩
  | reserved payload => cases h; exact .inr ⟨_, .inl rfl, rfl⟩
  | immediate imm54 => cases h; exact .inr ⟨_, .inl rfl, rfl⟩
  | register reg opt =>
    cases hp : s.pop s.cfg.pushBytes with
    | error e => simp only [writeBackReg, bind, Except.bind, hp] at h; cases h; exact .inr ⟨e, .inr rfl, rfl⟩
    | ok p => simp only [writeBackReg, bind, Except.bind, hp] at h; cases h; exact .inl ⟨reg, opt, p, rfl, rfl, rfl⟩

/-- What `ret` can do (R142). -/
theorem execRet_cases {s t : State} (h : execRet s = .next t) :
    (∃ p, s.pop s.cfg.pushBytes = .ok p ∧ t = p.2.setIp p.1)
    ∨ ∃ e, s.pop s.cfg.pushBytes = .error e ∧ t = s.raise e := by
  unfold execRet at h
  cases hp : s.pop s.cfg.pushBytes with
  | error e => simp only [bind, Except.bind, hp] at h; cases h; exact .inr ⟨e, rfl, rfl⟩
  | ok p => simp only [bind, Except.bind, hp] at h; cases h; exact .inl ⟨p, rfl, rfl⟩

/-- The operand forms that have a value, and that value (R120). -/
theorem State.resolve_of_value {s : State} {o : UnaryOperand} {v : Word} (h : OperandValue s o v) :
    s.resolve o = .ok v := by
  obtain ⟨reg, opt, rfl, rfl⟩ | ⟨imm, rfl, hv⟩ := h
  · rfl
  · have : imm.setWidth 64 = v := BitVec.eq_of_toNat_eq (by
      rw [hv, BitVec.toNat_setWidth, Nat.mod_eq_of_lt (by have := imm.isLt; omega)])
    simp [State.resolve, this]

/-- What a cycle can do (R152): nothing when stopped, `FetchOutOfRange` without a word, and otherwise the execution of the
word fetched, with the instruction pointer incremented. -/
theorem cycle_cases {s t : State} (h : cycle s = .next t) :
    (s.stopped = true ∧ t = s)
    ∨ (s.stopped = false ∧ s.fetch = none ∧ t = s.raise (.fetchOutOfRange s.ip))
    ∨ (∃ w i, s.stopped = false ∧ s.fetch = some w ∧ decode s.cfg.optable w = .ok i ∧ exec i s.advance = .next t)
    ∨ ∃ w r, s.stopped = false ∧ s.fetch = some w ∧ decode s.cfg.optable w = .error r
        ∧ t = s.advance.raise (rejectException r) := by
  unfold cycle at h
  cases hs : s.stopped with
  | true => rw [hs] at h; cases h; exact .inl ⟨rfl, rfl⟩
  | false =>
    rw [hs] at h
    cases hf : s.fetch with
    | none => rw [hf] at h; cases h; exact .inr (.inl ⟨rfl, rfl, rfl⟩)
    | some w =>
      rw [hf] at h
      simp only [Bool.false_eq_true, if_false, State.decodeAndExecute, State.advance_cfg] at h
      cases hd : decode s.cfg.optable w with
      | ok i => rw [hd] at h; exact .inr (.inr (.inl ⟨w, i, rfl, rfl, hd, h⟩))
      | error r => rw [hd] at h; cases h; exact .inr (.inr (.inr ⟨w, r, rfl, rfl, hd, rfl⟩))

/-! ### What an exception entry leaves -/

@[simp] theorem State.beforeEntry_stack (s : State) : s.beforeEntry.stack = s.stack := s.setFlag_stack _ _

@[simp] theorem State.beforeEntry_cfg (s : State) : s.beforeEntry.cfg = s.cfg := s.setFlag_cfg _ _

/-- `beforeEntry` undoes the entry's write of `halt` for every register, on a state that was not halted (R176). -/
theorem State.readReg_beforeEntry_raise {s : State} (hs : s.halt = false) (e : Exception) (j : RegId) :
    (s.raise e).beforeEntry.readReg j = s.readReg j := by
  unfold State.beforeEntry
  by_cases hj : j = flagsSlot
  · subst hj
    apply BitVec.eq_of_getLsbD_eq
    intro k hk
    change State.flag _ k = s.flag k
    rw [State.flag_setFlag, State.flag_raise]
    by_cases hb : k = haltBit
    · subst hb; simpa [hk, State.halt] using hs.symm
    · simp [hb]
  · simp [hj]

/-- After a cycle that raised, the word just passed is the one that was fetched (R152, R176). -/
theorem State.lastWord_advance_raise (s : State) (e : Exception) : (s.advance.raise e).lastWord = s.fetch := by
  have hip : (s.advance.raise e).ip = s.ip + 1#64 :=
    (s.advance.readReg_raise_ne e (by decide)).trans (State.ip_setIp s _)
  simp [State.lastWord, State.fetch, State.imageWord, hip]

/-! ### Frames -/

@[simp] theorem SameBesidesRegs.refl (s : State) : SameBesidesRegs s s := ⟨fun _ => rfl, rfl, fun _ => rfl, rfl⟩

/-- A register write does nothing else. -/
theorem onlyWrites_writeReg (s : State) (d : RegId) (v : Word) : OnlyWrites s (s.writeReg d v) d v :=
  ⟨fun j => s.readReg_writeReg d j v, by simp [SameBesidesRegs, State.stackByte, State.imageWord]⟩

/-- The registers that a single write leaves alone. -/
theorem regsSameExcept_writeReg (s : State) (d : RegId) (v : Word) : RegsSameExcept s (s.writeReg d v) [d] := by
  intro j hj
  exact s.readReg_writeReg_ne (by simpa using hj) v

end Sys2Proof.Machine
end

