-- ==== Sys2Proof/Laws/PerInstr.lean ====
section
/-! SUPPORT. Family `OpcodeByte`: the leading byte of every instruction's word under the default table is the one R76 lists,
whatever its operand fields are. -/

namespace Sys2Proof.Laws.OpcodeByte

/-- The opcode byte of each instruction, as R76 lists them. -/
def listed : Instr → BitVec 8
  | .add _ => 0x60#8
  | .sub _ => 0x61#8
  | .mul _ => 0x62#8
  | .div _ => 0x63#8
  | .shr _ => 0x64#8
  | .shl _ => 0x65#8
  | .and _ => 0x66#8
  | .or _ => 0x67#8
  | .xor _ => 0x68#8
  | .inc _ => 0x29#8
  | .dec _ => 0x2A#8
  | .not _ => 0x4B#8
  | .xchg _ => 0x4C#8
  | .cmp _ => 0x4D#8
  | .call _ => 0x2E#8
  | .jmp _ => 0x2F#8
  | .jr _ => 0x30#8
  | .je _ => 0x31#8
  | .jne _ => 0x32#8
  | .ja _ => 0x33#8
  | .jae _ => 0x34#8
  | .jb _ => 0x35#8
  | .jbe _ => 0x36#8
  | .push _ => 0x37#8
  | .pop _ => 0x38#8
  | .hlt => 0x19#8
  | .ret => 0x1A#8
  | .asgn _ => 0x9B#8
  | .asgnh _ => 0x9C#8
  | .asgnl _ => 0x9D#8

/-- The leading 8 bits of the instruction's word (R61) are its opcode byte (R76). -/
def Statement (i : Instr) : Prop := (encode OpTable.default i).extractLsb' 56 8 = listed i

theorem add (f : ThreeAddressFields) : Statement (.add f) := by
  simp only [Statement, encode, Instr.decoded, pack]
  simp (disch := omega) only [extract_append_above, Nat.reduceSub]
  rfl

theorem sub (f : ThreeAddressFields) : Statement (.sub f) := by
  simp only [Statement, encode, Instr.decoded, pack]
  simp (disch := omega) only [extract_append_above, Nat.reduceSub]
  rfl

theorem mul (f : ThreeAddressFields) : Statement (.mul f) := by
  simp only [Statement, encode, Instr.decoded, pack]
  simp (disch := omega) only [extract_append_above, Nat.reduceSub]
  rfl

theorem div (f : ThreeAddressFields) : Statement (.div f) := by
  simp only [Statement, encode, Instr.decoded, pack]
  simp (disch := omega) only [extract_append_above, Nat.reduceSub]
  rfl

theorem shr (f : ThreeAddressFields) : Statement (.shr f) := by
  simp only [Statement, encode, Instr.decoded, pack]
  simp (disch := omega) only [extract_append_above, Nat.reduceSub]
  rfl

theorem shl (f : ThreeAddressFields) : Statement (.shl f) := by
  simp only [Statement, encode, Instr.decoded, pack]
  simp (disch := omega) only [extract_append_above, Nat.reduceSub]
  rfl

theorem and (f : ThreeAddressFields) : Statement (.and f) := by
  simp only [Statement, encode, Instr.decoded, pack]
  simp (disch := omega) only [extract_append_above, Nat.reduceSub]
  rfl

theorem or (f : ThreeAddressFields) : Statement (.or f) := by
  simp only [Statement, encode, Instr.decoded, pack]
  simp (disch := omega) only [extract_append_above, Nat.reduceSub]
  rfl

theorem xor (f : ThreeAddressFields) : Statement (.xor f) := by
  simp only [Statement, encode, Instr.decoded, pack]
  simp (disch := omega) only [extract_append_above, Nat.reduceSub]
  rfl

theorem inc (o : UnaryOperand) : Statement (.inc o) := by
  cases o <;> simp only [Statement, encode, Instr.decoded, pack] <;>
    simp (disch := omega) only [extract_append_above, Nat.reduceSub] <;> rfl

theorem dec (o : UnaryOperand) : Statement (.dec o) := by
  cases o <;> simp only [Statement, encode, Instr.decoded, pack] <;>
    simp (disch := omega) only [extract_append_above, Nat.reduceSub] <;> rfl

theorem not (f : BinomialFields) : Statement (.not f) := by
  simp only [Statement, encode, Instr.decoded, pack]
  simp (disch := omega) only [extract_append_above, Nat.reduceSub]
  rfl

theorem xchg (f : BinomialFields) : Statement (.xchg f) := by
  simp only [Statement, encode, Instr.decoded, pack]
  simp (disch := omega) only [extract_append_above, Nat.reduceSub]
  rfl

theorem cmp (f : BinomialFields) : Statement (.cmp f) := by
  simp only [Statement, encode, Instr.decoded, pack]
  simp (disch := omega) only [extract_append_above, Nat.reduceSub]
  rfl

theorem call (o : UnaryOperand) : Statement (.call o) := by
  cases o <;> simp only [Statement, encode, Instr.decoded, pack] <;>
    simp (disch := omega) only [extract_append_above, Nat.reduceSub] <;> rfl

theorem jmp (o : UnaryOperand) : Statement (.jmp o) := by
  cases o <;> simp only [Statement, encode, Instr.decoded, pack] <;>
    simp (disch := omega) only [extract_append_above, Nat.reduceSub] <;> rfl

theorem jr (o : UnaryOperand) : Statement (.jr o) := by
  cases o <;> simp only [Statement, encode, Instr.decoded, pack] <;>
    simp (disch := omega) only [extract_append_above, Nat.reduceSub] <;> rfl

theorem je (o : UnaryOperand) : Statement (.je o) := by
  cases o <;> simp only [Statement, encode, Instr.decoded, pack] <;>
    simp (disch := omega) only [extract_append_above, Nat.reduceSub] <;> rfl

theorem jne (o : UnaryOperand) : Statement (.jne o) := by
  cases o <;> simp only [Statement, encode, Instr.decoded, pack] <;>
    simp (disch := omega) only [extract_append_above, Nat.reduceSub] <;> rfl

theorem ja (o : UnaryOperand) : Statement (.ja o) := by
  cases o <;> simp only [Statement, encode, Instr.decoded, pack] <;>
    simp (disch := omega) only [extract_append_above, Nat.reduceSub] <;> rfl

theorem jae (o : UnaryOperand) : Statement (.jae o) := by
  cases o <;> simp only [Statement, encode, Instr.decoded, pack] <;>
    simp (disch := omega) only [extract_append_above, Nat.reduceSub] <;> rfl

theorem jb (o : UnaryOperand) : Statement (.jb o) := by
  cases o <;> simp only [Statement, encode, Instr.decoded, pack] <;>
    simp (disch := omega) only [extract_append_above, Nat.reduceSub] <;> rfl

theorem jbe (o : UnaryOperand) : Statement (.jbe o) := by
  cases o <;> simp only [Statement, encode, Instr.decoded, pack] <;>
    simp (disch := omega) only [extract_append_above, Nat.reduceSub] <;> rfl

theorem push (o : UnaryOperand) : Statement (.push o) := by
  cases o <;> simp only [Statement, encode, Instr.decoded, pack] <;>
    simp (disch := omega) only [extract_append_above, Nat.reduceSub] <;> rfl

theorem pop (o : UnaryOperand) : Statement (.pop o) := by
  cases o <;> simp only [Statement, encode, Instr.decoded, pack] <;>
    simp (disch := omega) only [extract_append_above, Nat.reduceSub] <;> rfl

theorem hlt : Statement .hlt := by unfold Statement; decide

theorem ret : Statement .ret := by unfold Statement; decide

theorem asgn (f : RegImmFields) : Statement (.asgn f) := by
  simp only [Statement, encode, Instr.decoded, pack]
  simp (disch := omega) only [extract_append_above, Nat.reduceSub]
  rfl

theorem asgnh (f : RegImmFields) : Statement (.asgnh f) := by
  simp only [Statement, encode, Instr.decoded, pack]
  simp (disch := omega) only [extract_append_above, Nat.reduceSub]
  rfl

theorem asgnl (f : RegImmFields) : Statement (.asgnl f) := by
  simp only [Statement, encode, Instr.decoded, pack]
  simp (disch := omega) only [extract_append_above, Nat.reduceSub]
  rfl

end Sys2Proof.Laws.OpcodeByte
end

