-- ==== Sys2Proof/Tests/Slice0.lean ====
section
/-! SUPPORT. Tests, each with the vector of spec/95 or the rule its expected value comes from, and a witness for the
hypotheses of each obligation that has any. -/

namespace Sys2Proof.Tests

open Sys2Proof Sys2Proof.Machine

/-! ### Helpers -/

/-- The state after reset with the instruction pointer, some registers and the stack bytes set. -/
def start (ip : Nat) (regs : List (RegId × Word)) (stack : List Byte := []) : State :=
  { regs.foldl (fun s p => s.writeReg p.1 p.2) (State.reset.setIp (BitVec.ofNat 64 ip)) with stack := stack }

/-- The state one step after the word is placed where the step fetches. -/
def after (w : Nat) (s : State) : State :=
  match step (s.withFetchWord 64 w) with
  | .next t => t
  | .fault _ => s
  | .refused _ => s

/-! ### Well-formedness -/

theorem test_wf_default_table : OpTable.default.wf = true := by decide

/-- R8: one code for two operations of format THREE_ADDRESS. -/
theorem test_wf_refuses_shared_three_address_code : OpTable.wf { sub := 0 } = false := by decide

/-- R8: one code for two operations of format UNARY. -/
theorem test_wf_refuses_shared_unary_code : OpTable.wf { pop := 9 } = false := by decide

/-- R8: one code for two operations of format BINOMIAL. -/
theorem test_wf_refuses_shared_binomial_code : OpTable.wf { cmp := 11 } = false := by decide

/-- R8: one code for two operations of format NO_OPERAND. -/
theorem test_wf_refuses_shared_no_operand_code : OpTable.wf { ret := 25 } = false := by decide

/-- R8: one code for two operations of format REGISTER_IMMEDIATE. -/
theorem test_wf_refuses_shared_register_immediate_code : OpTable.wf { asgnl := 27 } = false := by decide

/-- R8: the map is from pairs, so one code may serve two formats. -/
theorem test_wf_allows_one_code_in_two_formats : OpTable.wf { cmp := 0 } = true := by decide

theorem test_wf_refuses_instruction_with_shared_code : Instr.wf { sub := 0 } (.add ⟨0, 0, 0, 0, 0, 0, 0, 0, 0⟩) = false := by
  decide

theorem test_wf_refuses_inc_with_shared_code : Instr.wf { pop := 9 } (.inc (.register 0 0)) = false := by decide

theorem test_wf_refuses_cmp_with_shared_code : Instr.wf { cmp := 11 } (.cmp ⟨0, 0, 0, 0, 0, 0⟩) = false := by decide

theorem test_wf_refuses_asgnl_with_shared_code : Instr.wf { asgnl := 27 } (.asgnl ⟨0, 0⟩) = false := by decide

theorem test_wf_refuses_hlt_with_shared_code : Instr.wf { ret := 25 } .hlt = false := by decide

/-- R70: a `BadFormat` value holds no defined format code. -/
theorem test_wf_refuses_bad_format_4 : (Decoded.badFormat 4 0 0).wf = false := by decide

/-! ### Decoding, one word per constructor, written out from R63 to R68 and R76 (95: V1 to V15, V25, V41, V44, V49a, V57a,
V59b, V63b, V71, V77, V78, S7, P3, P4, P6) -/

theorem test_decode_add : decode OpTable.default 0x6001408300000000#64 = .ok (.add ⟨0, 0, 0, 5, 1, 3, 0, 0, 0⟩) := by decide

theorem test_decode_sub : decode OpTable.default 0x6101408300000000#64 = .ok (.sub ⟨0, 0, 0, 5, 1, 3, 0, 0, 0⟩) := by decide

theorem test_decode_mul : decode OpTable.default 0x6200C08100000000#64 = .ok (.mul ⟨0, 0, 0, 3, 1, 1, 0, 0, 0⟩) := by decide

theorem test_decode_div : decode OpTable.default 0x6301C08200000000#64 = .ok (.div ⟨0, 0, 0, 7, 1, 2, 0, 0, 0⟩) := by decide

theorem test_decode_shr : decode OpTable.default 0x6400C08500000000#64 = .ok (.shr ⟨0, 0, 0, 3, 1, 5, 0, 0, 0⟩) := by decide

theorem test_decode_shl : decode OpTable.default 0x6501828500000000#64 = .ok (.shl ⟨0, 0, 0, 6, 5, 5, 0, 0, 0⟩) := by decide

theorem test_decode_and : decode OpTable.default 0x66E1408300FE8020#64 = .ok (.and ⟨1, 1, 1, 5, 1, 3, 3, 1000, 8⟩) := by decide

theorem test_decode_or : decode OpTable.default 0x6710808000000000#64 = .ok (.or ⟨0, 0, 0, 66, 1, 0, 0, 0, 0⟩) := by decide

theorem test_decode_xor : decode OpTable.default 0x68F12244FFFFFFFC#64 = .ok (.xor ⟨1, 1, 1, 68, 68, 68, 1023, 1023, 1023⟩) := by decide

theorem test_decode_inc : decode OpTable.default 0x2941800000000010#64 = .ok (.inc (.pointer 3 16)) := by decide

theorem test_decode_dec : decode OpTable.default 0x2A20800000000000#64 = .ok (.dec (.register 65 0)) := by decide

theorem test_decode_not : decode OpTable.default 0x4B01010000000000#64 = .ok (.not ⟨0, 0, 2, 1, 0, 0⟩) := by decide

theorem test_decode_xchg : decode OpTable.default 0x4C20810000000000#64 = .ok (.xchg ⟨0, 0, 65, 1, 0, 0⟩) := by decide

theorem test_decode_cmp : decode OpTable.default 0x4D80840000800001#64 = .ok (.cmp ⟨1, 0, 1, 4, 8, 1⟩) := by decide

theorem test_decode_call : decode OpTable.default 0x2E80000000000005#64 = .ok (.call (.reserved 5)) := by decide

theorem test_decode_jmp : decode OpTable.default 0x2FC0000000000002#64 = .ok (.jmp (.immediate 2)) := by decide

theorem test_decode_jr : decode OpTable.default 0x30C0000000000002#64 = .ok (.jr (.immediate 2)) := by decide

theorem test_decode_je : decode OpTable.default 0x3140800000000000#64 = .ok (.je (.pointer 1 0)) := by decide

theorem test_decode_jne : decode OpTable.default 0x32C0000000000003#64 = .ok (.jne (.immediate 3)) := by decide

theorem test_decode_ja : decode OpTable.default 0x33C0000000000003#64 = .ok (.ja (.immediate 3)) := by decide

theorem test_decode_jae : decode OpTable.default 0x34C0000000000006#64 = .ok (.jae (.immediate 6)) := by decide

theorem test_decode_jb : decode OpTable.default 0x35C0000000000003#64 = .ok (.jb (.immediate 3)) := by decide

theorem test_decode_jbe : decode OpTable.default 0x36FFFFFFFFFFFFFF#64 = .ok (.jbe (.immediate 18014398509481983)) := by decide

theorem test_decode_push : decode OpTable.default 0x3703800000000003#64 = .ok (.push (.register 7 3)) := by decide

theorem test_decode_pop : decode OpTable.default 0x387FFFFFFFFFFFFF#64 = .ok (.pop (.pointer 127 140737488355327)) := by decide

theorem test_decode_hlt : decode OpTable.default 0x19FFFFFFFFFFFFFF#64 = .ok (.hlt) := by decide

theorem test_decode_ret : decode OpTable.default 0x1A00000000000000#64 = .ok (.ret) := by decide

theorem test_decode_asgn : decode OpTable.default 0x9B81FFFFFFFFFFFF#64 = .ok (.asgn ⟨64, 562949953421311⟩) := by decide

theorem test_decode_asgnh : decode OpTable.default 0x9C03FFFF00000001#64 = .ok (.asgnh ⟨1, 0x1FFFF00000001⟩) := by decide

theorem test_decode_asgnl : decode OpTable.default 0x9D020000DEADBEEF#64 = .ok (.asgnl ⟨1, 0xDEADBEEF⟩) := by decide

/-- V5: the spare bits of THREE_ADDRESS are ignored. -/
theorem test_decode_ignores_spare_bits :
    decode OpTable.default 0x6001408300000003#64 = .ok (.add ⟨0, 0, 0, 5, 1, 3, 0, 0, 0⟩) := by decide

/-- V16 -/
theorem test_decode_undefined_format : decode OpTable.default 0xA000000000000000#64 = .error (.undefinedFormat 5) := by
  decide

/-- V18 -/
theorem test_decode_zero_word : decode OpTable.default 0#64 = .error (.undefinedOperation 0 0) := by decide

/-- V20 -/
theorem test_decode_fields_of_undefined_operation :
    decodeFields 0x7EDCBA9876543210#64 = .threeAddress 30 ⟨1, 1, 0, 114, 117, 24, 473, 323, 132⟩ := by decide

theorem test_decode_table_word : decodeTableWord 64 0x1900000000000000 = some .hlt := by decide

/-! ### One step (95, 2.2 to 2.7) -/

/-- V21 -/
theorem test_add_wraps : (after 0x6001408300000000 (start 0 [(1, 0xFFFFFFFFFFFFFFFF), (3, 2)])).readReg 5 = 1 := by decide

/-- V24 -/
theorem test_add_reads_incremented_ip : (after 0x6010608100000000 (start 2 [(1, 1)])).ip = 4 := by decide

/-- V25 -/
theorem test_sub_wraps : (after 0x6101408300000000 (start 0 [(1, 5), (3, 8)])).readReg 5 = 0xFFFFFFFFFFFFFFFD := by decide

/-- V29 -/
theorem test_mul_keeps_low_bits : (after 0x6201408300000000 (start 0 [(1, 0x123456789), (3, 0xABCDEF012)])).readReg 5 = 0x379AAAB7F0BFB7A2 := by decide

/-- V33 -/
theorem test_div_is_unsigned : (after 0x6301408300000000 (start 0 [(1, 0x8000000000000000), (3, 0xFFFFFFFFFFFFFFFF)])).readReg 5 = 0 := by decide

/-- V34 -/
theorem test_div_by_zero : (after 0x6301408300000000 (start 1 [(1, 7), (5, 99)])).fault = some .divideByZero := by decide

/-- V35 -/
theorem test_shr_is_logical : (after 0x6401408300000000 (start 0 [(1, 0x8000000000000000), (3, 63)])).readReg 5 = 1 := by decide

/-- V37 -/
theorem test_shr_by_64 : (after 0x6401408300000000 (start 0 [(1, 0xABC), (3, 64)])).fault = some (.shiftOutOfRange 64) := by decide

/-- V39 -/
theorem test_shl : (after 0x6501408300000000 (start 0 [(1, 3), (3, 63)])).readReg 5 = 0x8000000000000000 := by decide

/-- V40 -/
theorem test_shl_amount_is_not_masked : (after 0x6501408300000000 (start 0 [(1, 1), (3, 0x10000000000), (5, 99)])).readReg 5 = 99 := by decide

/-- V41 -/
theorem test_and_ignores_flags_and_options : (after 0x66E1408300FE8020 (start 0 [(1, 0xFF00FF00FF00FF00), (3, 0x0FF00FF00FF00FF0)])).readReg 5 = 0x0F000F000F000F00 := by decide

/-- V42 -/
theorem test_or : (after 0x6701408300000000 (start 0 [(1, 0xFF00FF00FF00FF00), (3, 0x0FF00FF00FF00FF0)])).readReg 5 = 0xFFF0FFF0FFF0FFF0 := by decide

/-- V44 -/
theorem test_or_writes_flags_slot : (after 0x6710808000000000 (start 0 [(1, 3)])).readReg 66 = 3 := by decide

/-- V43 -/
theorem test_xor_same_source_and_destination : (after 0x6800408100000000 (start 0 [(1, 0x1234)])).readReg 1 = 0 := by decide

/-- V46 -/
theorem test_not : (after 0x4B00810000000000 (start 0 [(1, 0x00FF00FF00FF00FF)])).readReg 1 = 0xFF00FF00FF00FF00 := by decide

/-- V45 -/
theorem test_not_of_r0 : (after 0x4B00800000000000 (start 0 [])).readReg 1 = 0xFFFFFFFFFFFFFFFF := by decide

/-- V48 -/
theorem test_xchg_with_r0 : (after 0x4C00010000000000 (start 0 [(1, 77)])).readReg 1 = 0 := by decide

/-- V49a -/
theorem test_xchg_with_ip : (after 0x4C20810000000000 (start 3 [(1, 1)])).readReg 1 = 4 := by decide

/-- V49c -/
theorem test_cmp_is_unsigned : (after 0x4D00830000000000 (start 0 [(1, 0xFFFFFFFFFFFFFFFF), (3, 1)])).readReg 66 = 2 := by decide

/-- V49d -/
theorem test_cmp_clears : (after 0x4D00830000000000 (start 0 [(1, 1), (3, 0xFFFFFFFFFFFFFFFF), (66, 3)])).readReg 66 = 0 := by decide

/-- V54 -/
theorem test_inc_wraps : (after 0x2900800000000000 (start 0 [(1, 0xFFFFFFFFFFFFFFFF)])).readReg 1 = 0 := by decide

/-- V58 -/
theorem test_inc_of_pointer : (after 0x2941800000000010 (start 1 [(3, 5)])).fault = some (.unsupportedAddressing 3) := by decide

/-- V55 -/
theorem test_dec_wraps : (after 0x2A00800000000000 (start 0 [])).readReg 1 = 0xFFFFFFFFFFFFFFFF := by decide

/-- V57a -/
theorem test_dec_ip : (after 0x2A20800000000000 (start 2 [])).ip = 2 := by decide

/-- V60, R47 -/
theorem test_call_pushes_little_endian : (after 0x2EC0000000000004 (start 1 [])).stack = [2, 0, 0, 0, 0, 0, 0, 0] := by decide

/-- V62 -/
theorem test_call_resolves_before_it_pushes : (after 0x2E20800000000000 (start 1 [])).ip = 2 := by decide

/-- V63a -/
theorem test_jmp_immediate_is_zero_extended : (after 0x2FFFFFFFFFFFFFFF (start 0 [])).ip = 18014398509481983 := by decide

/-- V59a -/
theorem test_jmp_reserved_subtype : (after 0x2F80800000000000 (start 1 [])).fault = some .reservedAddressingMode := by decide

/-- V63b -/
theorem test_jr : (after 0x30C0000000000002 (start 0 [])).ip = 2 := by decide

/-- V51 -/
theorem test_je_taken : (after 0x31C0000000000003 (start 0 [(66, 1)])).ip = 3 := by decide

/-- V52 -/
theorem test_je_not_taken : (after 0x31C0000000000003 (start 0 [(66, 2)])).ip = 1 := by decide

/-- V52 -/
theorem test_jne_taken : (after 0x32C0000000000003 (start 0 [(66, 2)])).ip = 3 := by decide

/-- V53 -/
theorem test_jne_not_taken : (after 0x32C0000000000003 (start 0 [(66, 3)])).ip = 1 := by decide

/-- V52 -/
theorem test_ja_taken : (after 0x33C0000000000003 (start 0 [(66, 2)])).ip = 3 := by decide

/-- V51 -/
theorem test_ja_not_taken : (after 0x33C0000000000003 (start 0 [(66, 1)])).ip = 1 := by decide

/-- V51 -/
theorem test_jae_taken : (after 0x34C0000000000003 (start 0 [(66, 1)])).ip = 3 := by decide

/-- V50 -/
theorem test_jae_not_taken : (after 0x34C0000000000003 (start 0 [(66, 0)])).ip = 1 := by decide

/-- V50 -/
theorem test_jb_taken : (after 0x35C0000000000003 (start 0 [(66, 0)])).ip = 3 := by decide

/-- V51 -/
theorem test_jb_not_taken : (after 0x35C0000000000003 (start 0 [(66, 1)])).ip = 1 := by decide

/-- V51 -/
theorem test_jbe_taken : (after 0x36C0000000000003 (start 0 [(66, 1)])).ip = 3 := by decide

/-- V53 -/
theorem test_jbe_not_taken : (after 0x36C0000000000003 (start 0 [(66, 3)])).ip = 1 := by decide

/-- V65 -/
theorem test_push_immediate : (after 0x37FFFFFFFFFFFFFF (start 0 [])).stack = [255, 255, 255, 255, 255, 255, 63, 0] := by decide

/-- V65b -/
theorem test_push_byte_pushes_all : (after 0x3700800000000001 (start 0 [(1, 0x1234)])).stack = [0x34, 0x12, 0, 0, 0, 0, 0, 0] := by decide

/-- V67 -/
theorem test_pop_underflow : (after 0x3800800000000000 (start 1 [(1, 5)])).fault = some (.stackUnderflow 0) := by decide

/-- V67b -/
theorem test_pop_flags : (after 0x3821000000000000 (start 0 [] [5, 0, 0, 0, 0, 0, 0, 0])).runState = .halted := by decide

/-- V69 -/
theorem test_hlt : (after 0x1900000000000000 (start 2 [(66, 1)])).readReg 66 = 5 := by decide

/-- V71 -/
theorem test_ret : (after 0x1A00000000000000 (start 3 [] [2, 0, 0, 0, 0, 0, 0, 0])).ip = 2 := by decide

/-- V72 -/
theorem test_ret_underflow : (after 0x1A00000000000000 (start 3 [])).ip = 4 := by decide

/-- V73 -/
theorem test_asgn_clears_upper_bits : (after 0x9B81FFFFFFFFFFFF (start 0 [(64, 0xFFFFFFFFFFFFFFFF)])).readReg 64 = 0x0001FFFFFFFFFFFF := by decide

/-- V74 -/
theorem test_asgn_ip : (after 0x9B82000000000002 (start 0 [])).ip = 2 := by decide

/-- V77 -/
theorem test_asgnh_keeps_low_half : (after 0x9C03FFFF00000001 (start 0 [(1, 0xFFFFFFFFFFFFFFFF)])).readReg 1 = 0x00000001FFFFFFFF := by decide

/-- V78 -/
theorem test_asgnl_keeps_high_half : (after 0x9D020000DEADBEEF (start 0 [(1, 0xAAAAAAAA55555555)])).readReg 1 = 0xAAAAAAAADEADBEEF := by decide

/-- V80 -/
theorem test_undefined_operation : (after 0x7900000000000000 (start 1 [])).fault = some (.undefinedOperation 3 25) := by decide

/-- V81 -/
theorem test_undefined_format : (after 0xA000000000000000 (start 1 [])).fault = some (.undefinedFormat 5) := by decide

/-- V82 -/
theorem test_operation_is_checked_before_subtype : (after 0x3E40000000000000 (start 1 [])).fault = some (.undefinedOperation 1 30) := by decide

/-- V83 -/
theorem test_fetch_out_of_range :
    (match step { start 5 [] with image := [0#64] } with
      | .next t => (t.fault, t.ip)
      | .fault _ => (none, 0)
      | .refused _ => (none, 0)) = (some (.fetchOutOfRange 5), 5) := by decide

/-- V86 -/
theorem test_exc_halts_false :
    (after 0x7900000000000000 { start 1 [] with cfg := { Config.default with excHalts := false } }).halt = false := by
  decide

/-- V37, `SHIFT_POLICY = mod64` -/
theorem test_shift_mod64 :
    (after 0x6401408300000000
      { start 0 [(1, 0xABC), (3, 68)] with cfg := { Config.default with shiftPolicy := .mod64 } }).readReg 5 = 0xAB := by
  decide

/-- V38, `SHL_SOURCE_BUG = true` -/
theorem test_shl_source_bug :
    (after 0x6501408300000000
      { start 0 [(1, 3), (3, 4)] with cfg := { Config.default with shlSourceBug := true } }).readReg 5 = 0x18 := by
  decide

/-- V49f, `CMP_SOURCE_BUG = true` -/
theorem test_cmp_source_bug :
    (after 0x4D00830000000000
      { start 0 [(1, 1), (3, 9), (66, 0xF2)] with cfg := { Config.default with cmpSourceBug := true } }).readReg 66
      = 0xF2 := by
  decide

/-! ### Image and assembler -/

/-- S1: a 33rd byte is discarded. -/
theorem test_deserialize_discards_trailing_byte :
    deserialize [0x9B, 2, 0, 0, 0, 0, 0, 5, 0x19] = [0x9B02000000000005] := by decide

/-- S4, with the label index corrected by conflict C4. -/
theorem test_assemble_label :
    assemble OpTable.default "jmp end\nadd rs0,rs0,rs0\nend: hlt".toList
      = .ok [0x2FC0000000000002, 0x6000408100000000, 0x1900000000000000] := by decide

/-- S5, P1. -/
theorem test_assemble_program :
    assemble OpTable.default "asgn rs0,5; asgn rs1,3; add rs2,rs0,rs1; hlt".toList
      = .ok [0x9B02000000000005, 0x9B06000000000003, 0x6001408300000000, 0x1900000000000000] := by decide

/-- S8 -/
theorem test_assemble_operand_count :
    assemble OpTable.default "add rs0,rs1".toList = .error ⟨1, .operandCount 3 2⟩ := by decide

/-- R94: an error on the third source line, after two empty ones. -/
theorem test_assemble_error_names_source_line :
    assemble OpTable.default "\n\nadd rs0,rs1".toList = .error ⟨3, .operandCount 3 2⟩ := by decide

/-- R83, R94: both logical lines of one source line have its number. -/
theorem test_assemble_error_after_semicolon :
    assemble OpTable.default "hlt\nret;frob".toList = .error ⟨2, .unknownMnemonic⟩ := by decide

/-- V2: size keyword, pointer operand, register. -/
theorem test_assemble_operand_forms :
    assemble OpTable.default "add word rs2,[rs0+4],rt31".toList = .ok [0x604140C000804000] := by decide

/-! ### Witnesses: a concrete state and operands that meet the hypotheses of each obligation that has any -/

/-- The largest undefined format; the smallest; and a format that has no further condition. -/
theorem witness_FieldsSurvivePackAndDecode :
    (Decoded.badFormat 7 31 0).wf = true ∧ (Decoded.badFormat 5 0 0).wf = true
    ∧ (Decoded.threeAddress 31 ⟨1, 1, 1, 127, 127, 127, 1023, 1023, 1023⟩).wf = true := by decide

theorem witness_InstructionsSurviveEncodeAndDecode :
    Instr.wf { cmp := 0 } (.cmp ⟨0, 0, 1, 3, 0, 0⟩) = true ∧ Instr.wf { ret := 31 } .hlt = true := by decide

theorem witness_DecodedWordIsTheInstructionsWord :
    decode OpTable.default 0x6001408300000003#64 = .ok (.add ⟨0, 0, 0, 5, 1, 3, 0, 0, 0⟩) := by decide

/-- Formats 5 and 7; format 4 with a code the table holds and one it does not; format 0 likewise. -/
theorem witness_RejectedWordsByName :
    5 ≤ ((0xA000000000000000#64).extractLsb' 61 3).toNat ∧ 5 ≤ ((0xFFFFFFFFFFFFFFFF#64).extractLsb' 61 3).toNat
    ∧ ((0x9D00000000000000#64).extractLsb' 61 3).toNat ≤ 4 ∧ holdsCode OpTable.default 4 29 = true
    ∧ holdsCode OpTable.default 4 30 = false ∧ ((0#64).extractLsb' 61 3).toNat ≤ 4
    ∧ holdsCode OpTable.default 0 0 = false := by decide

theorem witness_ImageSerialisationRoundTrips :
    (List.replicate 7 (0 : Byte)).length < 8 ∧ ([] : List Byte).length < 8 ∧ 8 ∣ (List.replicate 16 (0 : Byte)).length := by
  decide

/-- The last record of two, with seven bytes after it. -/
theorem witness_ImageWordsAreBigEndian : 1 < (List.replicate 23 (0 : Byte)).length / 8 := by decide

/-- The state of V21 before its step. -/
def running : State := (start 0 [(1, 0xFFFFFFFFFFFFFFFF), (3, 2)]).withNextWord 0x6001408300000000

theorem witness_StepRunsDecodedInstruction :
    running.halt = false ∧ running.fault = none ∧ running.image[running.ip.toNat]? = some 0x6001408300000000
    ∧ decode running.cfg.optable 0x6001408300000000#64 = .ok (.add ⟨0, 0, 0, 5, 1, 3, 0, 0, 0⟩) := by decide

/-- An undefined format (V81), and undefined operations of the formats 4 and 0. -/
theorem witness_StepAtUndefinedWordRaises :
    let s := (start 1 []).withNextWord 0xA000000000000000
    let t := (start 1 []).withNextWord 0x9E00000000000000
    let u := (start 1 []).withNextWord 0
    s.halt = false ∧ s.fault = none ∧ s.image[s.ip.toNat]? = some 0xA000000000000000
    ∧ 5 ≤ ((0xA000000000000000#64).extractLsb' 61 3).toNat
    ∧ t.image[t.ip.toNat]? = some 0x9E00000000000000 ∧ ((0x9E00000000000000#64).extractLsb' 61 3).toNat ≤ 4
    ∧ holdsCode t.cfg.optable ((0x9E00000000000000#64).extractLsb' 61 3) ((0x9E00000000000000#64).extractLsb' 56 5) = false
    ∧ u.image[u.ip.toNat]? = some 0 ∧ u.halt = false
    ∧ holdsCode u.cfg.optable ((0#64).extractLsb' 61 3) ((0#64).extractLsb' 56 5) = false := by decide

/-- RUN with each of the four ends (V80, `hlt`, the last word, a jump to itself), a latched state without `halt`, a halted one
and one at the end, and an image for the state after a reset. -/
theorem witness_RunStateTransitions :
    running.runState = .run ∧ (after 0x7900000000000000 State.reset).runState = .fault
    ∧ (after 0x1900000000000000 State.reset).runState = .halted
    ∧ (after 0x6001408300000000 State.reset).runState = .ended
    ∧ (after 0x2FC0000000000000 State.reset).runState = .run
    ∧ State.runState { State.reset with fault := some .divideByZero } = .fault
    ∧ (start 0 [(66, 4)]).runState = .halted ∧ State.reset.runState = .ended
    ∧ State.runState { start 1 [] with image := [0#64] } = .ended
    ∧ (State.reset.boot [0, 0, 0, 0, 0, 0, 0, 0]).runState = .run := by decide

/-- The states of `RunStatesClassified`, each reached: see also `witness_RunStateTransitions`. -/
theorem witness_RunStatesClassified : running.runState = .run := by decide

theorem witness_StoppedMachineStaysStopped :
    (start 0 [(66, 4)]).halt = true ∧ ({ State.reset with fault := some .divideByZero } : State).fault ≠ none := by
  decide

/-- A run of one cycle to END, and one of none from HALTED; for the converse, the same runs with their cycles counted. -/
theorem witness_RunLoopEndsAtFirstStop :
    ((runLoop 1 running).isSome = true ∧ runLoop 0 (start 0 [(66, 4)]) = some (start 0 [(66, 4)]))
    ∧ (∃ t, Host.Core.run Sys2Proof.core 1 running = .next t ∧ t.runState ≠ .run
      ∧ ∀ m, m < 1 → ∃ u, Host.Core.run Sys2Proof.core m running = .next u ∧ u.runState = .run)
    ∧ Host.Core.run Sys2Proof.core 0 (start 0 [(66, 4)]) = .next (start 0 [(66, 4)])
    ∧ (start 0 [(66, 4)]).runState ≠ .run := by
  refine ⟨by decide +kernel, ⟨_, rfl, by decide, fun m hm => ?_⟩, rfl, by decide⟩
  obtain rfl : m = 0 := by omega
  exact ⟨running, rfl, by decide⟩

theorem witness_ImageIsImmutable : ∃ t, step running = .next t := ⟨_, rfl⟩

/-- A push that fills the stack to `STACK_MAX`, and one that finds it full. -/
theorem witness_StepKeepsMemoryForm :
    let cfg := { Config.default with stackMax := some 8 }
    let s := ({ start 0 [] with cfg := cfg } : State).withNextWord 0x3700800000000000
    let t := ({ start 0 [] (List.replicate 8 0) with cfg := cfg } : State).withNextWord 0x3700800000000000
    (Memory.wf s = true ∧ ∃ u, step s = .next u) ∧ (Memory.wf t = true ∧ ∃ u, step t = .next u) := by
  exact ⟨⟨by decide, _, rfl⟩, by decide, _, rfl⟩

/-- The state that `div rs2,rs0,flags` leaves: the divisor slot was 0 and holds `halt` after the entry. -/
def dividedByFlags : State := after 0x630140C200000000 (start 0 [(1, 7)])

/-- The empty latch of a running machine, and latches that hold a cause. -/
theorem witness_StepKeepsLatchSound :
    (LatchSound running ∧ ∃ t, step running = .next t)
    ∧ (LatchSound (State.reset.raise (.fetchOutOfRange 0)) ∧ ∃ t, step (State.reset.raise (.fetchOutOfRange 0)) = .next t)
    ∧ LatchSound dividedByFlags ∧ dividedByFlags.fault = some .divideByZero ∧ dividedByFlags.readReg 66 = 4
    ∧ ∃ t, step dividedByFlags = .next t := by
  refine ⟨⟨?_, _, rfl⟩, ⟨?_, _, rfl⟩, ?_, by decide, by decide, _, rfl⟩
  · intro e h
    exact absurd h (by decide +revert)
  · intro e h
    obtain rfl : Exception.fetchOutOfRange 0 = e := Option.some.inj h
    exact ⟨by unfold CauseHolds; decide, by decide⟩
  · intro e h
    obtain rfl : Exception.divideByZero = e := Option.some.inj h
    exact ⟨⟨0x630140C200000000, .div ⟨0, 0, 0, 5, 1, 66, 0, 0, 0⟩, by decide, by decide, by decide, _, rfl, by decide⟩,
      by decide⟩

/-- The divisor 1 and the divisor 0. -/
theorem witness_DivResult : (start 0 [(3, 1)]).readReg 3 ≠ 0#64 := by decide

theorem witness_DivByZeroRaises : (start 0 [(1, 7)]).readReg 3 = 0#64 := by decide

theorem witness_ShrResult : ((start 0 [(3, 63)]).readReg (⟨0, 0, 0, 5, 1, 3, 0, 0, 0⟩ : ThreeAddressFields).rs2).toNat < 64 := by
  decide

/-- Source2 is 63, and source1 is 63 under `SHL_SOURCE_BUG`. -/
theorem witness_ShlResult :
    (shlAmount ⟨0, 0, 0, 5, 1, 3, 0, 0, 0⟩ (start 0 [(3, 63)])).toNat < 64
    ∧ (shlAmount ⟨0, 0, 0, 5, 1, 3, 0, 0, 0⟩
        { start 0 [(1, 63), (3, 64)] with cfg := { Config.default with shlSourceBug := true } }).toNat < 64 := by
  decide

/-- The amount 64 for `shr` and `shl`, under each policy and with the amount of `SHL_SOURCE_BUG`. -/
theorem witness_ShiftAmountOutOfRange :
    ∀ p : ShiftPolicy, ∀ bug : Bool, p = .fault ∨ p = .zero ∨ p = .mod64 →
      let s := { start 0 [(1, 64), (3, 64)] with cfg := { Config.default with shiftPolicy := p, shlSourceBug := bug } }
      64 ≤ (s.readReg 3).toNat ∧ 64 ≤ (shlAmount ⟨0, 0, 0, 5, 1, 3, 0, 0, 0⟩ s).toNat ∧ s.cfg.shiftPolicy = p := by
  intro p bug _
  cases p <;> cases bug <;> decide

/-- The two values of `CMP_SOURCE_BUG`, and the least bit that `cmp` leaves. -/
theorem witness_CmpWritesFlags :
    State.reset.cfg.cmpSourceBug = false ∧ ({ Config.default with cmpSourceBug := true } : Config).cmpSourceBug = true
    ∧ 2 ≤ haltBit := by decide

/-- Equal, above and below, each by the smallest difference. -/
theorem witness_CmpThenConditions :
    (∃ t, exec (.cmp ⟨0, 0, 1, 3, 0, 0⟩) (start 0 [(1, 5), (3, 5)]) = .next t) ∧ State.reset.cfg.cmpSourceBug = false
    ∧ (start 0 [(1, 5), (3, 5)]).readReg 1 = (start 0 [(1, 5), (3, 5)]).readReg 3
    ∧ ((start 0 [(1, 6), (3, 5)]).readReg 3).toNat < ((start 0 [(1, 6), (3, 5)]).readReg 1).toNat
    ∧ ((start 0 [(1, 4), (3, 5)]).readReg 1).toNat < ((start 0 [(1, 4), (3, 5)]).readReg 3).toNat := by
  exact ⟨⟨_, rfl⟩, by decide, by decide, by decide, by decide⟩

/-- All thirteen instructions, and the three that write back. -/
theorem witness_UnaryOperandWithoutValueRaises :
    (unaryInstrs (.pointer 3 16)).length = 13 ∧ Instr.je (.pointer 1 0) ∈ unaryInstrs (.pointer 1 0)
    ∧ Instr.jmp (.reserved 5) ∈ unaryInstrs (.reserved 5) := by decide

theorem witness_WriteBackToImmediateRaises :
    writeBackInstrs (.immediate 1) = [Instr.inc (.immediate 1), .dec (.immediate 1), .pop (.immediate 1)] := by decide

/-- Both operand forms that have a value: the register form on `ip`, and the largest immediate. -/
theorem witness_JmpAndJrJump :
    OperandValue (start 2 []) (.register 65 0) 2 ∧ OperandValue State.reset (.immediate (BitVec.allOnes 54)) 0x3FFFFFFFFFFFFF :=
  ⟨.inl ⟨65, 0, rfl, by decide⟩, .inr ⟨_, rfl, by decide⟩⟩

/-- The four values of `equal` and `above`. -/
theorem witness_ConditionalJumpTable :
    OperandValue State.reset (.immediate 3) 3
    ∧ [0, 1, 2, 3].map (fun f : Word => ((start 0 [(66, f)]).equal, (start 0 [(66, f)]).above))
      = [(false, false), (true, false), (false, true), (true, true)] :=
  ⟨.inr ⟨3, rfl, by decide⟩, by decide⟩

/-- An unbounded stack, and one that the push fills. -/
theorem witness_CallPushesAndJumps :
    OperandValue State.reset (.immediate 4) 4 ∧ HasRoom State.reset
    ∧ HasRoom { State.reset with cfg := { Config.default with stackMax := some 8 } } := by
  refine ⟨.inr ⟨4, rfl, by decide⟩, fun m h => ?_, fun m h => ?_⟩
  · exact absurd h (by decide +revert)
  · obtain rfl : 8 = m := Option.some.inj h
    decide

theorem witness_PushStoresOnTop :
    OperandValue (start 0 [(1, 7)]) (.register 1 1) 7 ∧ HasRoom { State.reset with cfg := { Config.default with stackMax := some 8 } } :=
  ⟨.inl ⟨1, 1, rfl, by decide⟩, witness_CallPushesAndJumps.2.2⟩

/-- A limit one byte too small, for both instructions. -/
theorem witness_PushPastTheLimitRaises :
    let s : State := { State.reset with cfg := { Config.default with stackMax := some 7 } }
    OperandValue s (.immediate 4) 4 ∧ s.cfg.stackMax = some 7 ∧ 7 < s.stack.length + s.cfg.pushBytes.bytes
    ∧ Instr.call (.immediate 4) ∈ [Instr.push (.immediate 4), .call (.immediate 4)] :=
  ⟨.inr ⟨4, rfl, by decide⟩, by decide, by decide, by decide⟩

/-- Exactly one quantity on the stack. -/
theorem witness_PopLoadsFromTop :
    let s := start 0 [] [5, 0, 0, 0, 0, 0, 0, 0]
    s.cfg.pushBytes.bytes ≤ s.stack.length := by decide

theorem witness_RetPopsInstructionPointer :
    let s : State := { start 3 [] [2] with cfg := { Config.default with pushBytes := .one } }
    s.cfg.pushBytes.bytes ≤ s.stack.length := by decide

/-- One byte too few. -/
theorem witness_PopOfTooFewBytesRaises :
    let s := start 0 [] (List.replicate 7 0)
    s.stack.length < s.cfg.pushBytes.bytes ∧ Instr.ret ∈ [Instr.pop (.register 1 0), .ret] := by decide

/-- S6: pushes of the four widths, with the bytes the spec lists. -/
theorem witness_StackDiscipline :
    pushAll [(.one, 0xAB), (.two, 0x1234), (.four, 0xDEADBEEF), (.eight, 0x0102030405060708)] State.reset
      = .ok { State.reset with stack := [0xAB, 0x34, 0x12, 0xEF, 0xBE, 0xAD, 0xDE, 8, 7, 6, 5, 4, 3, 2, 1] } := by
  decide +kernel

theorem witness_HltSetsHalt : State.reset.fault = none ∧ 0 ≠ haltBit ∧ 63 ≠ haltBit := by decide

/-- V76 and V78, with upper immediate bits set. -/
theorem witness_ConstantFromTwoHalves :
    let lo : RegImmFields := ⟨1, 0x1FFFFDEADBEEF⟩
    let hi : RegImmFields := ⟨1, 0x1000001234567⟩
    (lo.reg ≠ 0#7 ∧ hi.reg = lo.reg ∧ lo.imm49.extractLsb' 0 32 = (0x01234567DEADBEEF#64).extractLsb' 0 32
      ∧ hi.imm49.extractLsb' 0 32 = (0x01234567DEADBEEF#64).extractLsb' 32 32)
    ∧ (∃ t u, exec (.asgnl lo) State.reset = .next t ∧ exec (.asgnh hi) t = .next u)
    ∧ ∃ t u, exec (.asgnh hi) State.reset = .next t ∧ exec (.asgnl lo) t = .next u :=
  ⟨by decide, ⟨_, _, rfl, rfl⟩, _, _, rfl, rfl⟩

/-- Each entry of the stack column, a `cmp` and a bit it leaves, and an exception. -/
theorem witness_InstructionsWriteOnlyWhatTheTableSays :
    (∃ t, exec (.add ⟨0, 0, 0, 5, 1, 3, 0, 0, 0⟩) running = .next t) ∧ stackUse (.add ⟨0, 0, 0, 5, 1, 3, 0, 0, 0⟩) = .none
    ∧ flagsSlot ∉ namedRegs (.add ⟨0, 0, 0, 5, 1, 3, 0, 0, 0⟩)
    ∧ (∃ t, exec (.push (.immediate 1)) State.reset = .next t) ∧ stackUse (.push (.immediate 1)) = .push
    ∧ (∃ t, exec .ret (start 0 [] (List.replicate 8 1)) = .next t) ∧ stackUse .ret = .pop
    ∧ (∃ t, exec (.cmp ⟨0, 0, 66, 1, 0, 0⟩) running = .next t) ∧ flagsSlot ∉ namedRegs (.cmp ⟨0, 0, 66, 1, 0, 0⟩)
    ∧ 2 ∉ sideFlags (.cmp ⟨0, 0, 66, 1, 0, 0⟩)
    ∧ ∃ t, exec .ret State.reset = .next t := by
  exact ⟨⟨_, rfl⟩, by decide, by decide, ⟨_, rfl⟩, by decide, ⟨_, rfl⟩, by decide, ⟨_, rfl⟩, by decide, by decide, _, rfl⟩

theorem witness_OnlyCmpHltAndExceptionsWriteFlags :
    let i : Instr := .inc (.register 1 0)
    (∃ t, exec i State.reset = .next t) ∧ (∀ f, i ≠ .cmp f) ∧ i ≠ .hlt ∧ flagsSlot ∉ writtenRegs i :=
  ⟨⟨_, rfl⟩, (fun _ h => nomatch h), by decide, by decide⟩

theorem witness_StackOperationsLeaveSpAndBp :
    let i : Instr := .push (.register 67 0)
    (∃ t, exec i State.reset = .next t) ∧ 67#7 ∉ writtenRegs i ∧ 68#7 ∉ writtenRegs i :=
  ⟨⟨_, rfl⟩, by decide, by decide⟩

/-- One destination, and two. -/
theorem witness_WritesToSlotZeroAreDiscarded :
    let i : Instr := .add ⟨0, 0, 0, 0, 1, 3, 0, 0, 0⟩
    let j : Instr := .xchg ⟨0, 0, 0, 0, 0, 0⟩
    ((∃ t, exec i State.reset = .next t) ∧ writtenRegs i ≠ [] ∧ (∀ k ∈ writtenRegs i, k = 0#7) ∧ usesStack i = false)
    ∧ (∃ t, exec j State.reset = .next t) ∧ writtenRegs j ≠ [] ∧ (∀ k ∈ writtenRegs j, k = 0#7) ∧ usesStack j = false :=
  ⟨⟨⟨_, rfl⟩, by decide, by decide, by decide⟩, ⟨_, rfl⟩, by decide, by decide,
    by decide⟩

theorem witness_PseudoInstructions : State.reset.cfg.cmpSourceBug = false := by decide

end Sys2Proof.Tests
end

/-! ## Memory form: every step keeps the form of the two memories (O12, O21) -/

namespace Sys2Proof.Machine

/-! ### What an instruction does to everything but the registers -/

/-- Nothing but the registers changed: the data form of `SameBesidesRegs`. -/
def OnlyRegsChange (s t : State) : Prop := t = { s with regs := t.regs }

theorem OnlyRegsChange.refl (s : State) : OnlyRegsChange s s := rfl

theorem OnlyRegsChange.trans {s t u : State} (hst : OnlyRegsChange s t) (htu : OnlyRegsChange t u) :
    OnlyRegsChange s u := by
  unfold OnlyRegsChange at *
  rw [htu, hst]

theorem onlyRegsChange_writeReg (s : State) (i : RegId) (v : Word) : OnlyRegsChange s (s.writeReg i v) := by
  unfold OnlyRegsChange State.writeReg
  split <;> rfl

theorem OnlyRegsChange.wf_eq {s t : State} (h : OnlyRegsChange s t) : Memory.wf t = Memory.wf s := by
  rw [h]
  rfl

/-- What an instruction with that entry in the stack column of R29 does to the state, its registers aside: nothing, or one
`Push` or `Pop` of a `PUSH_BYTES` quantity (R48, R49). -/
def StackEffect (s t : State) : StackUse → Prop
  | .none => OnlyRegsChange s t
  | .push => ∃ v u, s.push s.cfg.pushBytes v = .ok u ∧ OnlyRegsChange u t
  | .pop => ∃ p, s.pop s.cfg.pushBytes = .ok p ∧ OnlyRegsChange p.2 t

theorem State.threeAddress_effect {s t : State} {f : ThreeAddressFields} {op : Word → Word → Except Exception Word}
    (h : s.threeAddress f op = .next t) : (∃ e, t = s.raise e) ∨ OnlyRegsChange s t := by
  obtain ⟨r, -, rfl⟩ | ⟨e, -, rfl⟩ := State.threeAddress_cases h
  · exact .inr (onlyRegsChange_writeReg s f.rd r)
  · exact .inl ⟨e, rfl⟩

theorem State.modify_effect {s t : State} {o : UnaryOperand} {f : Word → Word} (h : s.modify o f = .next t) :
    (∃ e, t = s.raise e) ∨ OnlyRegsChange s t := by
  obtain ⟨reg, opt, -, rfl⟩ | ⟨e, -, rfl⟩ := State.modify_cases h
  · exact .inr (onlyRegsChange_writeReg s reg _)
  · exact .inl ⟨e, rfl⟩

theorem State.jumpIf_effect {s t : State} {taken : Bool} {o : UnaryOperand} (h : s.jumpIf taken o = .next t) :
    (∃ e, t = s.raise e) ∨ OnlyRegsChange s t := by
  obtain ⟨v, -, rfl⟩ | ⟨e, -, rfl⟩ := State.jumpIf_cases h
  · cases taken with
    | true => exact .inr (onlyRegsChange_writeReg s ipSlot v)
    | false => exact .inr (.refl s)
  · exact .inl ⟨e, rfl⟩

theorem execXchg_effect {s t : State} {f : BinomialFields} (h : execXchg f s = .next t) : OnlyRegsChange s t := by
  unfold execXchg at h
  split at h
  · cases h
    exact .refl s
  · cases h
    exact (onlyRegsChange_writeReg s f.r1 _).trans (onlyRegsChange_writeReg _ f.r2 _)

/-- What an instruction can do to everything but the registers: take an exception, or what the stack column of R29 says. -/
theorem exec_effect {i : Instr} {s t : State} (h : exec i s = .next t) :
    (∃ e, t = s.raise e) ∨ StackEffect s t (stackUse i) := by
  cases i with
  | add f | sub f | mul f | div f | shr f | shl f | and f | or f | xor f =>
    simp only [exec, execAdd, execSub, execMul, execDiv, execShr, execShl, execAnd, execOr, execXor] at h
    exact State.threeAddress_effect h
  | inc o | dec o =>
    simp only [exec, execInc, execDec] at h
    exact State.modify_effect h
  | jmp o | jr o | je o | jne o | ja o | jae o | jb o | jbe o => exact State.jumpIf_effect h
  | xchg f => exact .inr (execXchg_effect h)
  | not f | cmp f | hlt | asgn f | asgnh f | asgnl f =>
    cases h
    exact .inr (onlyRegsChange_writeReg s _ _)
  | call o =>
    obtain ⟨v, u, -, hp, rfl⟩ | ⟨e, -, rfl⟩ := execCall_cases h
    · exact .inr ⟨s.ip, u, hp, onlyRegsChange_writeReg u ipSlot v⟩
    · exact .inl ⟨e, rfl⟩
  | push o =>
    obtain ⟨v, -, hp⟩ | ⟨e, -, rfl⟩ := execPush_cases h
    · exact .inr ⟨v, t, hp, .refl t⟩
    · exact .inl ⟨e, rfl⟩
  | pop o =>
    obtain ⟨reg, opt, p, -, hp, rfl⟩ | ⟨e, -, rfl⟩ := execPop_cases h
    · exact .inr ⟨p, hp, onlyRegsChange_writeReg p.2 reg p.1⟩
    · exact .inl ⟨e, rfl⟩
  | ret =>
    obtain ⟨p, hp, rfl⟩ | ⟨e, -, rfl⟩ := execRet_cases h
    · exact .inr ⟨p, hp, onlyRegsChange_writeReg p.2 ipSlot p.1⟩
    · exact .inl ⟨e, rfl⟩

/-! ### The form of the memories is kept -/

@[simp] theorem Memory.wf_raise (s : State) (e : Exception) : Memory.wf (s.raise e) = Memory.wf s :=
  Memory.wf_congr (s.raise_image e) (s.raise_stack e) (s.raise_cfg e)

@[simp] theorem Memory.wf_advance (s : State) : Memory.wf s.advance = Memory.wf s :=
  Memory.wf_congr s.advance_image s.advance_stack s.advance_cfg

theorem StackEffect.keeps_wf {s t : State} {use : StackUse} (h : StackEffect s t use) (hs : Memory.wf s = true) :
    Memory.wf t = true := by
  cases use with
  | none => exact h.wf_eq.trans hs
  | push =>
    obtain ⟨v, u, hp, hu⟩ := h
    exact hu.wf_eq.trans (State.push_keeps_wf hp hs)
  | pop =>
    obtain ⟨p, hp, hu⟩ := h
    exact hu.wf_eq.trans (State.pop_keeps_wf hp hs)

theorem exec_keeps_wf {i : Instr} {s t : State} (h : exec i s = .next t) (hs : Memory.wf s = true) :
    Memory.wf t = true := by
  obtain ⟨e, rfl⟩ | he := exec_effect h
  · exact (Memory.wf_raise s e).trans hs
  · exact he.keeps_wf hs

theorem cycle_keeps_wf {s t : State} (h : cycle s = .next t) (hs : Memory.wf s = true) : Memory.wf t = true := by
  obtain ⟨-, rfl⟩ | ⟨-, -, rfl⟩ | ⟨w, i, -, -, -, hi⟩ | ⟨w, r, -, -, -, rfl⟩ := cycle_cases h
  · exact hs
  · simpa using hs
  · exact exec_keeps_wf hi (by simpa using hs)
  · simpa using hs

/-- An empty latch holds no cause to be wrong about. -/
theorem latchSound_of_fault_eq_none {s : State} (h : s.fault = none) : LatchSound s := fun e he => by
  rw [h] at he
  cases he

/-- Settles O21: each cycle stands still, raises, or runs an instruction, and none of the three breaks the form. -/
theorem stepKeepsMemoryForm : Obligations.StepKeepsMemoryForm := fun _ _ hs h => cycle_keeps_wf h hs

/-- Settles O12: the memories are empty at reset, and so is the latch. -/
theorem invariantsHoldAtReset : Obligations.InvariantsHoldAtReset :=
  ⟨State.reset_wf, latchSound_of_fault_eq_none rfl⟩

end Sys2Proof.Machine

/-! ## State: what an instruction writes and what it leaves (O11, O53, O54, O55, O56) -/

namespace Sys2Proof.Machine

/-! ### What an instruction does to the registers -/

/-- The slots whose stored words are as before: slot 0, which takes no store (R15), and those not listed. It says more than
`RegsSameExcept`, which reads slot 0 as 0 whatever is stored there. -/
def StoresOnlyTo (s t : State) (ids : List RegId) : Prop :=
  ∀ j : RegId, j = 0#7 ∨ j ∉ ids → t.regs[j.toNat]'j.isLt = s.regs[j.toNat]'j.isLt

theorem storesOnlyTo_of_regs_eq {s t : State} (h : t.regs = s.regs) (ids : List RegId) : StoresOnlyTo s t ids :=
  fun j _ => by simp only [h]

theorem StoresOnlyTo.trans {s t u : State} {ids : List RegId} (hst : StoresOnlyTo s t ids)
    (htu : StoresOnlyTo t u ids) : StoresOnlyTo s u ids :=
  fun j hj => (htu j hj).trans (hst j hj)

/-- A register write stores to a listed slot only, or to none at all if it names slot 0. -/
theorem storesOnlyTo_writeReg (s : State) {d : RegId} {ids : List RegId} (hd : d ∈ ids) (v : Word) :
    StoresOnlyTo s (s.writeReg d v) ids := by
  intro j hj
  unfold State.writeReg
  split
  · rfl
  · next hd0 =>
    have hne : d ≠ j := by rintro rfl; exact hj.elim hd0 (· hd)
    have hnat : d.toNat ≠ j.toNat := fun h => hne (BitVec.eq_of_toNat_eq h)
    exact Vector.getElem_set_ne d.isLt j.isLt hnat

theorem StoresOnlyTo.regsSameExcept {s t : State} {ids : List RegId} (h : StoresOnlyTo s t ids) :
    RegsSameExcept s t ids := fun j hj => by
  unfold State.readReg
  rw [h j (.inr hj)]

/-- Stores to slot 0 alone leave every stored word (R15). -/
theorem StoresOnlyTo.regs_eq {s t : State} {ids : List RegId} (h : StoresOnlyTo s t ids) (h0 : ∀ j ∈ ids, j = 0#7) :
    t.regs = s.regs := by
  apply Vector.ext
  intro n hn
  let j : RegId := BitVec.ofFin ⟨n, hn⟩
  exact h j (or_iff_not_imp_right.2 fun hj => h0 j (not_not.1 hj))

/-- A `Push` that raises nothing appends the bytes and does nothing else (R48). -/
theorem State.eq_of_push_ok {s u : State} {n : Quantity} {v : Word} (h : s.push n v = .ok u) :
    u = { s with stack := s.stack ++ leBytes n.bytes v } := by
  obtain ⟨-, heq⟩ | ⟨-, heq⟩ := s.push_cases n v
  · exact Except.ok.inj (h.symm.trans heq)
  · cases h.symm.trans heq

/-- A `Pop` that raises nothing takes the top bytes and does nothing else (R49). -/
theorem State.eq_of_pop_ok {s : State} {n : Quantity} {p : Word × State} (h : s.pop n = .ok p) :
    n.bytes ≤ s.stack.length ∧ p.2 = { s with stack := s.stack.take (s.stack.length - n.bytes) } := by
  obtain ⟨hle, heq⟩ | ⟨-, heq⟩ := s.pop_cases n
  · exact ⟨hle, congrArg Prod.snd (Except.ok.inj (h.symm.trans heq))⟩
  · cases h.symm.trans heq

theorem State.regs_of_push {s u : State} {n : Quantity} {v : Word} (h : s.push n v = .ok u) : u.regs = s.regs := by
  rw [State.eq_of_push_ok h]

theorem State.regs_of_pop {s : State} {n : Quantity} {p : Word × State} (h : s.pop n = .ok p) :
    p.2.regs = s.regs := by
  rw [(State.eq_of_pop_ok h).2]

/-- Moving the stack and then writing a listed register stores to listed slots only. -/
theorem storesOnlyTo_writeReg_of_regs_eq {s u : State} (hu : u.regs = s.regs) {d : RegId} {ids : List RegId}
    (hd : d ∈ ids) (v : Word) : StoresOnlyTo s (u.writeReg d v) ids :=
  (storesOnlyTo_of_regs_eq hu ids).trans (storesOnlyTo_writeReg u hd v)

theorem execXchg_stores {s t : State} {f : BinomialFields} (h : execXchg f s = .next t) :
    StoresOnlyTo s t [f.r1, f.r2] := by
  unfold execXchg at h
  split at h <;> cases h
  · exact storesOnlyTo_of_regs_eq rfl _
  · exact (storesOnlyTo_writeReg s (by simp) _).trans (storesOnlyTo_writeReg _ (by simp) _)

/-- What an instruction can do to the registers: take an exception, or store to those that R29 lists. -/
theorem exec_stores {i : Instr} {s t : State} (h : exec i s = .next t) :
    (∃ e, t = s.raise e) ∨ StoresOnlyTo s t (writtenRegs i) := by
  cases i with
  | add f | sub f | mul f | div f | shr f | shl f | and f | or f | xor f =>
    simp only [exec, execAdd, execSub, execMul, execDiv, execShr, execShl, execAnd, execOr, execXor] at h
    obtain ⟨r, -, rfl⟩ | ⟨e, -, rfl⟩ := State.threeAddress_cases h
    · exact .inr (storesOnlyTo_writeReg s (List.mem_singleton_self f.rd) r)
    · exact .inl ⟨e, rfl⟩
  | inc o | dec o =>
    simp only [exec, execInc, execDec] at h
    obtain ⟨reg, opt, rfl, rfl⟩ | ⟨e, -, rfl⟩ := State.modify_cases h
    · exact .inr (storesOnlyTo_writeReg s (List.mem_singleton_self reg) _)
    · exact .inl ⟨e, rfl⟩
  | jmp o | jr o | je o | jne o | ja o | jae o | jb o | jbe o =>
    obtain ⟨v, -, rfl⟩ | ⟨e, -, rfl⟩ := State.jumpIf_cases h
    · split
      · exact .inr (storesOnlyTo_writeReg s (List.mem_singleton_self ipSlot) v)
      · exact .inr (storesOnlyTo_of_regs_eq rfl _)
    · exact .inl ⟨e, rfl⟩
  | xchg f => exact .inr (execXchg_stores h)
  | not f | cmp f | hlt | asgn f | asgnh f | asgnl f =>
    cases h
    exact .inr (storesOnlyTo_writeReg s (List.mem_singleton_self _) _)
  | call o =>
    obtain ⟨v, u, -, hp, rfl⟩ | ⟨e, -, rfl⟩ := execCall_cases h
    · exact .inr (storesOnlyTo_writeReg_of_regs_eq (State.regs_of_push hp) (List.mem_singleton_self ipSlot) v)
    · exact .inl ⟨e, rfl⟩
  | push o =>
    obtain ⟨v, -, hp⟩ | ⟨e, -, rfl⟩ := execPush_cases h
    · exact .inr (storesOnlyTo_of_regs_eq (State.regs_of_push hp) _)
    · exact .inl ⟨e, rfl⟩
  | pop o =>
    obtain ⟨reg, opt, p, rfl, hp, rfl⟩ | ⟨e, -, rfl⟩ := execPop_cases h
    · exact .inr (storesOnlyTo_writeReg_of_regs_eq (State.regs_of_pop hp) (List.mem_singleton_self reg) p.1)
    · exact .inl ⟨e, rfl⟩
  | ret =>
    obtain ⟨p, hp, rfl⟩ | ⟨e, -, rfl⟩ := execRet_cases h
    · exact .inr (storesOnlyTo_writeReg_of_regs_eq (State.regs_of_pop hp) (List.mem_singleton_self ipSlot) p.1)
    · exact .inl ⟨e, rfl⟩

/-! ### Exception entry and the stack, in the terms of the claims -/

/-- `raise` is the exception entry of R176. -/
theorem takesException_raise (s : State) (e : Exception) : TakesException s (s.raise e) e := by
  refine ⟨s.raise_fault e, s.halt_raise e, ?_, ?_, ?_, ?_, s.raise_cfg e⟩
  · intro k hk
    rw [State.flag_raise, if_neg hk]
  · intro j hj
    exact s.readReg_raise_ne e (by simpa using hj)
  · simp [State.stackByte]
  · simp [State.imageWord]

/-- An instruction takes an exception, or does what both the register and the stack columns of R29 say. -/
theorem exec_takesException_or {i : Instr} {s t : State} (h : exec i s = .next t) :
    (∃ e, TakesException s t e) ∨ (StoresOnlyTo s t (writtenRegs i) ∧ StackEffect s t (stackUse i)) := by
  obtain ⟨e, rfl⟩ | hstores := exec_stores h
  · exact .inl ⟨e, takesException_raise s e⟩
  · obtain ⟨e, rfl⟩ | heffect := exec_effect h
    · exact .inl ⟨e, takesException_raise s e⟩
    · exact .inr ⟨hstores, heffect⟩

theorem OnlyRegsChange.sameBesidesRegs {s t : State} (h : OnlyRegsChange s t) : SameBesidesRegs s t := by
  rw [h]
  exact ⟨fun _ => rfl, rfl, fun _ => rfl, rfl⟩

theorem OnlyRegsChange.stack_eq {s t : State} (h : OnlyRegsChange s t) : t.stack = s.stack := by rw [h]

/-- A push or a pop leaves latch, image and parameters. -/
theorem StackEffect.latch_image_cfg {s t : State} {use : StackUse} (h : StackEffect s t use) :
    t.fault = s.fault ∧ (∀ k, t.imageWord k = s.imageWord k) ∧ t.cfg = s.cfg := by
  cases use with
  | none => exact h.sameBesidesRegs.2
  | push =>
    obtain ⟨v, u, hp, hu⟩ := h
    obtain rfl := State.eq_of_push_ok hp
    exact hu.sameBesidesRegs.2
  | pop =>
    obtain ⟨⟨v, u⟩, hp, hu⟩ := h
    obtain ⟨-, rfl⟩ := State.eq_of_pop_ok hp
    exact hu.sameBesidesRegs.2

/-- A push lengthens the stack above the bytes it leaves, a pop shortens it down to them (R48, R49). -/
theorem StackEffect.stackChanges {s t : State} {use : StackUse} (h : StackEffect s t use) : StackChanges s t use := by
  cases use with
  | none => exact h.sameBesidesRegs.1
  | push =>
    obtain ⟨v, u, hp, hu⟩ := h
    have hstack : t.stack = s.stack ++ leBytes s.cfg.pushBytes.bytes v := by
      rw [hu.stack_eq, State.eq_of_push_ok hp]
    refine ⟨by simp [hstack], fun k hk => ?_⟩
    simp only [State.stackByte, hstack]
    exact List.getElem?_append_left hk
  | pop =>
    obtain ⟨p, hp, hu⟩ := h
    obtain ⟨hle, heq⟩ := State.eq_of_pop_ok hp
    have hstack : t.stack = s.stack.take (s.stack.length - s.cfg.pushBytes.bytes) := by rw [hu.stack_eq, heq]
    have hlen : t.stack.length = s.stack.length - s.cfg.pushBytes.bytes := by simp [hstack]
    refine ⟨by omega, fun k hk => ?_⟩
    simp only [State.stackByte, hstack]
    exact List.getElem?_take_of_lt (hlen ▸ hk)

/-! ### What an instruction does to the flags -/

theorem RegsSameExcept.flag_eq {s t : State} {ids : List RegId} (h : RegsSameExcept s t ids) (hf : flagsSlot ∉ ids)
    (k : Nat) : t.flag k = s.flag k := congrArg (·.getLsbD k) (h flagsSlot hf)

/-- `cmp` writes `equal` and `above` and no other bit of the flags word (R116). -/
theorem getLsbD_compareFlags_ne (sourceBug : Bool) (a b w : Word) {k : Nat} (he : k ≠ equalBit) (ha : k ≠ aboveBit) :
    (compareFlags sourceBug a b w).getLsbD k = w.getLsbD k := by
  cases sourceBug <;> simp [compareFlags, getLsbD_setBit, he, ha]

theorem execCmp_flag_ne {s t : State} {f : BinomialFields} (h : execCmp f s = .next t) {k : Nat} (he : k ≠ equalBit)
    (ha : k ≠ aboveBit) : t.flag k = s.flag k := by
  cases h
  unfold State.flag
  rw [State.readReg_writeReg_self _ (by decide), getLsbD_compareFlags_ne _ _ _ _ he ha]

theorem execHlt_flag_ne {s t : State} (h : execHlt s = .next t) {k : Nat} (hk : k ≠ haltBit) :
    t.flag k = s.flag k := by
  cases h
  simp [State.flag_setFlag, hk]

/-- The instructions with an empty side effect column name every register they write. -/
theorem namedRegs_of_sideFlags_eq_nil {i : Instr} (h : sideFlags i = []) : namedRegs i = writtenRegs i := if_pos h

/-- No flag bit changes but by the side effect that R29 lists or with a named destination (R21). -/
theorem exec_flag_eq {i : Instr} {s t : State} (h : exec i s = .next t) (hregs : RegsSameExcept s t (writtenRegs i))
    (hnamed : flagsSlot ∉ namedRegs i) {k : Nat} (hk : k ∉ sideFlags i) : t.flag k = s.flag k := by
  by_cases hside : sideFlags i = []
  · exact hregs.flag_eq (namedRegs_of_sideFlags_eq_nil hside ▸ hnamed) k
  · cases i with
    | cmp f =>
      obtain ⟨he, ha⟩ : k ≠ equalBit ∧ k ≠ aboveBit := by simpa [sideFlags] using hk
      exact execCmp_flag_ne h he ha
    | hlt => exact execHlt_flag_ne h (by simpa [sideFlags] using hk)
    | _ => exact absurd rfl hside

/-- A register other than the flags that is no destination reads as before, whether or not an exception is taken. -/
theorem exec_readReg_eq {i : Instr} {s t : State} (h : exec i s = .next t) {j : RegId} (hf : j ≠ flagsSlot)
    (hj : j ∉ writtenRegs i) : t.readReg j = s.readReg j := by
  obtain ⟨e, rfl⟩ | hstores := exec_stores h
  · exact s.readReg_raise_ne e hf
  · exact hstores.regsSameExcept j hj

/-! ### The obligations -/

/-- Settles O53: the register and stack columns of R29 hold of every instruction, and the flag column follows. -/
theorem instructionsWriteOnlyWhatTheTableSays : Obligations.InstructionsWriteOnlyWhatTheTableSays := by
  intro i s t h
  obtain hexc | ⟨hstores, heffect⟩ := exec_takesException_or h
  · exact .inl hexc
  · have hregs := hstores.regsSameExcept
    exact .inr ⟨hregs, fun hnamed _ hk => exec_flag_eq h hregs hnamed hk, heffect.stackChanges,
      heffect.latch_image_cfg⟩

/-- Settles O54: an instruction that does not write slot 66 leaves the whole flags word. -/
theorem onlyCmpHltAndExceptionsWriteFlags : Obligations.OnlyCmpHltAndExceptionsWriteFlags := by
  intro i s t h _ _ hflags
  obtain hexc | ⟨hstores, -⟩ := exec_takesException_or h
  · exact .inl hexc
  · exact .inr (hstores.regsSameExcept.flag_eq hflags)

/-- Settles O55: `sp` and `bp` are not the flags slot, so exception entry leaves them too. -/
theorem stackOperationsLeaveSpAndBp : Obligations.StackOperationsLeaveSpAndBp := fun _ _ _ h =>
  ⟨exec_readReg_eq h (by decide), exec_readReg_eq h (by decide)⟩

/-- Settles O56: with no stack use only the registers can change, and stores to slot 0 change none. -/
theorem writesToSlotZeroAreDiscarded : Obligations.WritesToSlotZeroAreDiscarded := by
  intro i s t h _ hzero hstack
  obtain hexc | ⟨hstores, heffect⟩ := exec_takesException_or h
  · exact .inl hexc
  · have huse : stackUse i = .none := by simpa [usesStack] using hstack
    have honly : OnlyRegsChange s t := by rwa [huse] at heffect
    refine .inr ?_
    calc t = { s with regs := t.regs } := honly
      _ = s := by rw [hstores.regs_eq hzero]

theorem State.flag_reinit (s : State) (k : Nat) : s.reinit.flag k = false := by simp [State.flag]

/-- With the instruction pointer at 0, word 0 is fetched. -/
theorem State.fetch_reinit (s : State) : s.reinit.fetch = s.image[0]? := by
  simp [State.fetch, State.ip, State.imageWord]

/-- Settles O11: every slot reads 0, and flags and instruction pointer are slots. -/
theorem resetOperationZeroesState : Obligations.ResetOperationZeroesState := fun s =>
  ⟨s.readReg_reinit, s.flag_reinit equalBit, s.flag_reinit aboveBit, s.flag_reinit haltBit, s.reinit_stack,
    s.reinit_fault, s.reinit_image, s.reinit_cfg, s.fetch_reinit, rfl⟩

end Sys2Proof.Machine

/-! ## Memory: the binary image and the discipline of the stack (O9, O10, O20, O45, O48, O49) -/

namespace Sys2Proof.Machine

/-! ### Records of the binary image (R42) -/

/-- Two adjacent fields of a word are one field: the library's lemma, with the positions to rewrite at as arguments. -/
theorem extract_append_extract (w : Word) (lo m n : Nat) :
    w.extractLsb' (lo + n) m ++ w.extractLsb' lo n = w.extractLsb' lo (m + n) :=
  BitVec.extractLsb'_append_extractLsb'_eq_extractLsb' rfl

/-- A word is its eight bytes, most significant first. -/
theorem wordOfRecord_bytes (w : Word) :
    wordOfRecord (w.extractLsb' 56 8) (w.extractLsb' 48 8) (w.extractLsb' 40 8) (w.extractLsb' 32 8)
      (w.extractLsb' 24 8) (w.extractLsb' 16 8) (w.extractLsb' 8 8) (w.extractLsb' 0 8) = w := by
  unfold wordOfRecord
  rw [extract_append_extract w 48 8 8, extract_append_extract w 40 16 8, extract_append_extract w 32 24 8,
    extract_append_extract w 24 32 8, extract_append_extract w 16 40 8, extract_append_extract w 8 48 8,
    extract_append_extract w 0 56 8]
  exact BitVec.extractLsb'_eq_self

/-- The record of a word gives back the bytes the word was made of. -/
theorem recordOfWord_wordOfRecord (b0 b1 b2 b3 b4 b5 b6 b7 : Byte) :
    recordOfWord (wordOfRecord b0 b1 b2 b3 b4 b5 b6 b7) = [b0, b1, b2, b3, b4, b5, b6, b7] := by
  unfold recordOfWord wordOfRecord
  simp (disch := omega) only [extract_append_above, Nat.reduceSub, extract_append_last]
  simp only [BitVec.extractLsb'_eq_self]

/-- Eight bytes are the record of a word. -/
theorem exists_eq_recordOfWord_append : ∀ {bytes : List Byte}, 8 ≤ bytes.length →
    ∃ w rest, bytes = recordOfWord w ++ rest
  | b0 :: b1 :: b2 :: b3 :: b4 :: b5 :: b6 :: b7 :: rest, _ =>
    ⟨wordOfRecord b0 b1 b2 b3 b4 b5 b6 b7, rest, by rw [recordOfWord_wordOfRecord]; rfl⟩

@[simp] theorem length_recordOfWord (w : Word) : (recordOfWord w).length = 8 := rfl

/-- An image is a sequence of records with fewer than eight bytes after the last. -/
theorem image_induction {P : List Byte → Prop} (short : ∀ bytes, bytes.length < 8 → P bytes)
    (record : ∀ w bytes, P bytes → P (recordOfWord w ++ bytes)) (bytes : List Byte) : P bytes := by
  induction hn : bytes.length using Nat.strong_induction_on generalizing bytes with
  | h n ih =>
    by_cases hlt : bytes.length < 8
    · exact short bytes hlt
    · obtain ⟨w, rest, rfl⟩ := exists_eq_recordOfWord_append (Nat.le_of_not_lt hlt)
      refine record w rest (ih rest.length ?_ rest rfl)
      simp only [List.length_append, length_recordOfWord] at hn
      omega

/-! ### Serialisation and deserialisation (R43) -/

@[simp] theorem deserialize_recordOfWord_append (w : Word) (bytes : List Byte) :
    deserialize (recordOfWord w ++ bytes) = w :: deserialize bytes :=
  congrArg (· :: deserialize bytes) (wordOfRecord_bytes w)

/-- A short record is no word. -/
theorem deserialize_of_length_lt {bytes : List Byte} (h : bytes.length < 8) : deserialize bytes = [] := by
  fun_cases deserialize bytes with
  | case1 => simp only [List.length_cons] at h; omega
  | case2 => rfl

theorem length_deserialize (bytes : List Byte) : (deserialize bytes).length = bytes.length / 8 := by
  induction bytes using image_induction with
  | short bytes h => simp [deserialize_of_length_lt h, Nat.div_eq_of_lt h]
  | record w bytes ih => simp [ih]

/-- A short trailing record is discarded, and nothing takes its place. -/
theorem deserialize_serialize_append (ws : List Word) {rest : List Byte} (h : rest.length < 8) :
    deserialize (serialize ws ++ rest) = ws := by
  induction ws with
  | nil => exact deserialize_of_length_lt h
  | cons w ws ih => rw [serialize, List.append_assoc, deserialize_recordOfWord_append, ih]

theorem deserialize_serialize (ws : List Word) : deserialize (serialize ws) = ws := by
  simpa using deserialize_serialize_append ws (rest := []) (by decide)

theorem serialize_deserialize (bytes : List Byte) (h : 8 ∣ bytes.length) : serialize (deserialize bytes) = bytes := by
  induction bytes using image_induction with
  | short bytes hlt =>
    have hnil : bytes = [] := List.length_eq_zero_iff.1 (Nat.eq_zero_of_dvd_of_lt h hlt)
    rw [hnil]
    rfl
  | record w bytes ih =>
    have hrest : 8 ∣ bytes.length := by simpa using h
    rw [deserialize_recordOfWord_append, serialize, ih hrest]

/-- Settles O9: both directions go record by record, and what is left at the end is too short for a record. -/
theorem imageSerialisationRoundTrips : Obligations.ImageSerialisationRoundTrips :=
  ⟨deserialize_serialize, length_deserialize, fun ws _ => deserialize_serialize_append ws, serialize_deserialize⟩

/-! ### The words of an image (R42) -/

theorem toNat_append_byte {n : Nat} (x : BitVec n) (b : Byte) : (x ++ b).toNat = x.toNat * 2 ^ 8 + b.toNat := by
  rw [BitVec.toNat_append, ← Nat.shiftLeft_add_eq_or_of_lt b.isLt, Nat.shiftLeft_eq]

/-- Eight digits in base `B`, the most significant first, as one number (Horner). The base is a variable, so that the kernel
never unfolds a product with a large numeral. -/
theorem sum_eight_digits (a : Nat → Nat) (B : Nat) :
    ((List.range 8).map fun k => a k * B ^ (7 - k)).sum
      = ((((((a 0 * B + a 1) * B + a 2) * B + a 3) * B + a 4) * B + a 5) * B + a 6) * B + a 7 := by
  simp only [List.range_succ, List.range_zero, List.map_append, List.sum_append, List.map_cons, List.map_nil,
    List.sum_cons, List.sum_nil]
  ring

/-- A word is the big-endian value of its record. -/
theorem toNat_eq_sum_recordOfWord (w : Word) (bytes : List Byte) :
    w.toNat = ((List.range 8).map fun k =>
      ((recordOfWord w ++ bytes).getD k 0#8).toNat * 2 ^ (8 * (7 - k))).sum := by
  conv_lhs => rw [← wordOfRecord_bytes w]
  simp only [wordOfRecord, toNat_append_byte, pow_mul, sum_eight_digits]
  rfl

theorem getD_recordOfWord_append (w : Word) (bytes : List Byte) (n : Nat) :
    (recordOfWord w ++ bytes).getD (8 + n) 0#8 = bytes.getD n 0#8 := by
  rw [List.getD_append_right _ _ _ _ (by simp), length_recordOfWord, Nat.add_sub_cancel_left]

theorem deserialize_getElem?_toNat (bytes : List Byte) (i : Nat) (h : i < bytes.length / 8) :
    ∃ w, (deserialize bytes)[i]? = some w
      ∧ w.toNat = ((List.range 8).map fun k => (bytes.getD (8 * i + k) 0#8).toNat * 2 ^ (8 * (7 - k))).sum := by
  induction bytes using image_induction generalizing i with
  | short bytes hlt => omega
  | record w bytes ih =>
    cases i with
    | zero => exact ⟨w, by simp, by simpa using toNat_eq_sum_recordOfWord w bytes⟩
    | succ i =>
      obtain ⟨v, hv, hsum⟩ := ih i (by simp only [List.length_append, length_recordOfWord] at h; omega)
      refine ⟨v, by simpa using hv, ?_⟩
      have hskip (k : Nat) : 8 * (i + 1) + k = 8 + (8 * i + k) := by ring
      simpa only [hskip, getD_recordOfWord_append] using hsum

/-- Settles O10: the index skips that many records, and the word of the next one is its big-endian value. -/
theorem imageWordsAreBigEndian : Obligations.ImageWordsAreBigEndian := fun _ bytes i h =>
  deserialize_getElem?_toNat bytes i h

/-! ### The image is immutable (R58) -/

/-- An instruction that raises and one that does not leave both the image and the parameters. -/
theorem exec_image_cfg {i : Instr} {s t : State} (h : exec i s = .next t) : t.image = s.image ∧ t.cfg = s.cfg := by
  obtain ⟨e, rfl⟩ | heffect := exec_effect h
  · exact ⟨s.raise_image e, s.raise_cfg e⟩
  · obtain ⟨-, himage, hcfg⟩ := heffect.latch_image_cfg
    exact ⟨List.ext_getElem? himage, hcfg⟩

theorem cycle_image_cfg {s t : State} (h : cycle s = .next t) : t.image = s.image ∧ t.cfg = s.cfg := by
  obtain ⟨-, rfl⟩ | ⟨-, -, rfl⟩ | ⟨w, i, -, -, -, hexec⟩ | ⟨w, r, -, -, -, rfl⟩ := cycle_cases h
  · exact ⟨rfl, rfl⟩
  · simp
  · simpa using exec_image_cfg hexec
  · simp

/-- Settles O20: fetch reads the image at the instruction pointer and nothing else. -/
theorem imageIsImmutable : Obligations.ImageIsImmutable := by
  intro s t h
  obtain ⟨himage, hcfg⟩ := cycle_image_cfg h
  exact ⟨himage, hcfg, congrArg (·[t.ip.toNat]?) himage⟩

/-! ### Pops after pushes (R50) -/

/-- Bytes above the top of the stack are read back as the value they hold, and taken off again. -/
theorem State.pop_append_leBytes (s : State) (n : Quantity) (v : Word) :
    State.pop { s with stack := s.stack ++ leBytes n.bytes v } n
      = .ok (BitVec.ofNat 64 (v.toNat % 2 ^ (8 * n.bytes)), s) := by
  have hle : n.bytes ≤ 8 := by have := Quantity.bytes_cases n; omega
  have hvalue : leValue (leBytes n.bytes v) = BitVec.ofNat 64 (v.toNat % 2 ^ (8 * n.bytes)) := by
    rw [← leValue_leBytes_toNat hle, BitVec.ofNat_toNat, BitVec.setWidth_eq]
  obtain ⟨-, hpop⟩ | ⟨hlt, -⟩ := State.pop_cases { s with stack := s.stack ++ leBytes n.bytes v } n
  · rw [hpop]
    simp [hvalue]
  · simp at hlt

/-- A pop undoes the push of the same width. -/
theorem State.pop_of_push {s t : State} {n : Quantity} {v : Word} (h : s.push n v = .ok t) :
    t.pop n = .ok (BitVec.ofNat 64 (v.toNat % 2 ^ (8 * n.bytes)), s) := by
  rw [State.eq_of_push_ok h]
  exact s.pop_append_leBytes n v

theorem popAll_cons_ok {n : Quantity} {ns : List Quantity} {s t : State} {vs : List Word}
    (h : popAll (n :: ns) s = .ok (vs, t)) :
    ∃ v u rest, s.pop n = .ok (v, u) ∧ popAll ns u = .ok (rest, t) ∧ vs = v :: rest := by
  simp only [popAll] at h
  split at h
  · cases h
  · next v u hpop =>
    split at h
    · cases h
    · next rest t' hrest =>
      cases h
      exact ⟨v, u, rest, hpop, hrest, rfl⟩

/-- One pop after the others. -/
theorem popAll_concat {ns : List Quantity} {n : Quantity} {s t u : State} {vs : List Word} {v : Word}
    (hns : popAll ns s = .ok (vs, t)) (hn : t.pop n = .ok (v, u)) : popAll (ns ++ [n]) s = .ok (vs ++ [v], u) := by
  induction ns generalizing s vs with
  | nil =>
    cases hns
    simp [popAll, hn]
  | cons m ns ih =>
    obtain ⟨w, s', rest, hm, hrest, rfl⟩ := popAll_cons_ok hns
    simp [popAll, hm, ih hrest]

theorem pushAll_cons_ok {p : Quantity × Word} {ps : List (Quantity × Word)} {s t : State}
    (h : pushAll (p :: ps) s = .ok t) : ∃ u, s.push p.1 p.2 = .ok u ∧ pushAll ps u = .ok t := by
  simp only [pushAll] at h
  split at h
  · next u hu => exact ⟨u, hu, h⟩
  · cases h

/-- Settles O49: the pops of the later pushes come first and leave the state of the first push, which one pop undoes. -/
theorem stackDiscipline : Obligations.StackDiscipline := by
  intro pushes
  induction pushes with
  | nil =>
    intro s t h
    cases h
    rfl
  | cons p ps ih =>
    intro s t h
    obtain ⟨u, hpush, hrest⟩ := pushAll_cons_ok h
    simpa using popAll_concat (ih u t hrest) (State.pop_of_push hpush)

/-! ### The limits of the stack (R181, R182) -/

theorem State.push_of_overflow {s : State} {n : Quantity} {m : Nat} (hmax : s.cfg.stackMax = some m)
    (h : m < s.stack.length + n.bytes) (v : Word) : s.push n v = .error (.stackOverflow s.stack.length) := by
  obtain ⟨hfits, -⟩ | ⟨-, herr⟩ := s.push_cases n v
  · simp only [hmax, fitsStack, decide_eq_true_eq] at hfits
    omega
  · exact herr

theorem State.pop_of_underflow {s : State} {n : Quantity} (h : s.stack.length < n.bytes) :
    s.pop n = .error (.stackUnderflow s.stack.length) := if_pos h

/-- Settles O45: the operand is resolved, then the push raises. -/
theorem pushPastTheLimitRaises : Obligations.PushPastTheLimitRaises := by
  intro o s v m hv hmax hlt i hi
  have hpush := State.push_of_overflow hmax hlt
  have hraise : exec i s = .next (s.raise (.stackOverflow s.stack.length)) := by
    obtain rfl | rfl : i = .push o ∨ i = .call o := by simpa using hi
    · simp [exec, execPush, State.resolve_of_value hv, hpush, bind, Except.bind]
    · simp [exec, execCall, State.resolve_of_value hv, hpush, bind, Except.bind]
  exact ⟨_, hraise, takesException_raise s _⟩

/-- Settles O48: the register to write is found, then the pop raises. -/
theorem popOfTooFewBytesRaises : Obligations.PopOfTooFewBytesRaises := by
  intro reg opt s hlt i hi
  have hpop := State.pop_of_underflow hlt
  have hraise : exec i s = .next (s.raise (.stackUnderflow s.stack.length)) := by
    obtain rfl | rfl : i = .pop (.register reg opt) ∨ i = .ret := by simpa using hi
    · simp [exec, execPop, writeBackReg, hpop, bind, Except.bind]
    · simp [exec, execRet, hpop, bind, Except.bind]
  exact ⟨_, hraise, takesException_raise s _⟩

end Sys2Proof.Machine

/-! ## Encoding: fields, words and instructions (O1 to O8) -/

namespace Sys2Proof

open Machine

/-! ### Format codes (R62, R79) -/

theorem Format.code_of_ofCode {c : BitVec 3} {f : Format} (h : Format.ofCode c = some f) : f.code = c := by
  revert c
  cases f <;> decide

theorem Format.ofCode_eq_none_iff {c : BitVec 3} : Format.ofCode c = none ↔ 5 ≤ c.toNat := by
  revert c
  decide

theorem Format.not_five_le_code (f : Format) : ¬ 5 ≤ f.code.toNat := by cases f <;> decide

/-! ### Packed fields are decoded to themselves (R72 (a)) -/

/-- Every field is read at the position it was put at, and the format code selects the format it was taken from. -/
theorem decodeFields_pack {d : Decoded} (h : d.wf = true) : decodeFields (pack d) = d := by
  cases d with
  | noOperand op | binomial op f | threeAddress op f | registerImmediate op f =>
    simp (disch := omega) only [decodeFields, pack, bitField, binomialFieldsOf, threeAddressFieldsOf, regImmFieldsOf,
      extract_append_above, extract_append_last, Nat.reduceSub, BitVec.extractLsb'_eq_self, Format.ofCode_code]
  | unary op o =>
    cases o <;>
      simp (disch := omega) only [decodeFields, pack, bitField, unaryOperandOf, extract_append_above,
        extract_append_last, Nat.reduceSub, BitVec.extractLsb'_eq_self, Format.ofCode_code] <;>
      rfl
  | badFormat fmt op rest =>
    have hnone : Format.ofCode fmt = none := Format.ofCode_eq_none_iff.2 (by simpa [Decoded.wf] using h)
    simp (disch := omega) only [decodeFields, pack, bitField, extract_append_above, extract_append_last, Nat.reduceSub,
      BitVec.extractLsb'_eq_self, hnone]

/-- Settles O2: the fields of a concatenation are its pieces. -/
theorem fieldsSurvivePackAndDecode : Obligations.FieldsSurvivePackAndDecode := fun _ h => decodeFields_pack h

/-! ### Decoded fields are packed to the word without its unused bits (R72 (b)) -/

/-- The decoder answers an undefined format only for one of the codes 5 to 7. -/
theorem decodeFields_wf (w : Word) : (decodeFields w).wf = true := by
  fun_cases decodeFields w with
  | case6 fmt op h => simpa [Decoded.wf] using Format.ofCode_eq_none_iff.1 h
  | _ => rfl

/-- The leading byte of a word of a defined format (R61). -/
theorem opcode_append {w : Word} {f : Format} (h : Format.ofCode (bitField w 61 3) = some f) :
    f.code ++ bitField w 56 5 = bitField w 56 8 := by
  rw [Format.code_of_ofCode h]
  exact extract_append_extract w 56 3 5

/-- The four subtypes of a UNARY word, each with the two bits that select it (R64, R65). -/
theorem unaryOperandOf_cases (w : Word) :
    (bitField w 54 2 = 0#2 ∧ unaryOperandOf w = .register (bitField w 47 7) (bitField w 0 47))
    ∨ (bitField w 54 2 = 1#2 ∧ unaryOperandOf w = .pointer (bitField w 47 7) (bitField w 0 47))
    ∨ (bitField w 54 2 = 2#2 ∧ unaryOperandOf w = .reserved (bitField w 0 54))
    ∨ (bitField w 54 2 = 3#2 ∧ unaryOperandOf w = .immediate (bitField w 0 54)) := by
  have hmodes : ∀ mode : BitVec 2, mode = 0#2 ∨ mode = 1#2 ∨ mode = 2#2 ∨ mode = 3#2 := by decide
  obtain hm | hm | hm | hm := hmodes (bitField w 54 2) <;> simp [unaryOperandOf, hm]

theorem pack_unaryOperandOf {w : Word} (h : Format.ofCode (bitField w 61 3) = some .unary) :
    pack (.unary (bitField w 56 5) (unaryOperandOf w)) = w := by
  obtain ⟨hm, ho⟩ | ⟨hm, ho⟩ | ⟨hm, ho⟩ | ⟨hm, ho⟩ := unaryOperandOf_cases w
  all_goals
    rw [ho, pack, opcode_append h, ← hm]
    simp (disch := omega) only [bitField, BitVec.extractLsb'_append_extractLsb'_eq_extractLsb']
    exact BitVec.extractLsb'_eq_self

theorem pack_binomialFieldsOf {w : Word} (h : Format.ofCode (bitField w 61 3) = some .binomial) :
    pack (.binomial (bitField w 56 5) (binomialFieldsOf w)) = w := by
  rw [pack, opcode_append h, binomialFieldsOf]
  simp (disch := omega) only [bitField, BitVec.extractLsb'_append_extractLsb'_eq_extractLsb']
  exact BitVec.extractLsb'_eq_self

theorem pack_threeAddressFieldsOf {w : Word} (h : Format.ofCode (bitField w 61 3) = some .threeAddress) :
    pack (.threeAddress (bitField w 56 5) (threeAddressFieldsOf w)) = bitField w 2 62 ++ 0#2 := by
  rw [pack, opcode_append h, threeAddressFieldsOf]
  simp (disch := omega) only [bitField, BitVec.extractLsb'_append_extractLsb'_eq_extractLsb']

theorem pack_regImmFieldsOf {w : Word} (h : Format.ofCode (bitField w 61 3) = some .registerImmediate) :
    pack (.registerImmediate (bitField w 56 5) (regImmFieldsOf w)) = w := by
  rw [pack, opcode_append h, regImmFieldsOf]
  simp (disch := omega) only [bitField, BitVec.extractLsb'_append_extractLsb'_eq_extractLsb']
  exact BitVec.extractLsb'_eq_self

theorem pack_badFormat (w : Word) :
    pack (.badFormat (bitField w 61 3) (bitField w 56 5) (bitField w 0 56)) = w := by
  simp (disch := omega) only [pack, bitField, BitVec.extractLsb'_append_extractLsb'_eq_extractLsb']
  exact BitVec.extractLsb'_eq_self

/-- Zero bits in place of the low ones, as a mask. -/
theorem extract_append_zero {n lo : Nat} (w : BitVec (n + lo)) :
    w.extractLsb' lo n ++ 0#lo = w &&& (BitVec.allOnes n ++ 0#lo) := by
  conv_rhs => rw [← BitVec.extractLsb'_append_extractLsb' (x := w)]
  rw [BitVec.and_append, BitVec.and_allOnes, BitVec.and_zero]

theorem pack_decodeFields (w : Word) : pack (decodeFields w) = w &&& keepMask w := by
  have hall : w &&& 0xFFFFFFFFFFFFFFFF = w := BitVec.and_allOnes
  fun_cases decodeFields w with
  | case1 fmt op h =>
    rw [keepMask, h, pack, opcode_append h]
    exact (extract_append_zero (n := 8) (lo := 56) w).trans (congrArg (w &&& ·) (by decide))
  | case2 fmt op h => rw [keepMask, h, hall, pack_unaryOperandOf h]
  | case3 fmt op h => rw [keepMask, h, hall, pack_binomialFieldsOf h]
  | case4 fmt op h =>
    rw [keepMask, h, pack_threeAddressFieldsOf h]
    exact (extract_append_zero (n := 62) (lo := 2) w).trans (congrArg (w &&& ·) (by decide))
  | case5 fmt op h => rw [keepMask, h, hall, pack_regImmFieldsOf h]
  | case6 fmt op h => rw [keepMask, h, hall, pack_badFormat]

/-- Settles O3: adjacent fields join to one, and only formats 0 and 3 leave bits out. -/
theorem repackClearsOnlyUnusedBits : Obligations.RepackClearsOnlyUnusedBits := pack_decodeFields

/-- Settles O6: the word without its unused bits is the packing of its fields, which decodes to them. -/
theorem unusedBitsAreIgnored : Obligations.UnusedBitsAreIgnored := by
  intro t w
  rw [← pack_decodeFields, decode, decodeFields_pack (decodeFields_wf w), decode]

/-! ### Instructions and their operations (R155) -/

/-- Every instruction is an operation of one of the five formats with the operand fields of that format. -/
theorem Instr.byFormat {P : Instr → Prop} (noOperand : ∀ m, P (NoOperandOp.instr m))
    (unary : ∀ m o, P (UnaryOp.instr o m)) (binomial : ∀ m f, P (BinomialOp.instr f m))
    (threeAddress : ∀ m f, P (ThreeAddressOp.instr f m)) (registerImmediate : ∀ m f, P (RegImmOp.instr f m)) :
    ∀ i, P i
  | .add f => threeAddress .add f
  | .sub f => threeAddress .sub f
  | .mul f => threeAddress .mul f
  | .div f => threeAddress .div f
  | .shr f => threeAddress .shr f
  | .shl f => threeAddress .shl f
  | .and f => threeAddress .and f
  | .or f => threeAddress .or f
  | .xor f => threeAddress .xor f
  | .inc o => unary .inc o
  | .dec o => unary .dec o
  | .not f => binomial .not f
  | .xchg f => binomial .xchg f
  | .cmp f => binomial .cmp f
  | .call o => unary .call o
  | .jmp o => unary .jmp o
  | .jr o => unary .jr o
  | .je o => unary .je o
  | .jne o => unary .jne o
  | .ja o => unary .ja o
  | .jae o => unary .jae o
  | .jb o => unary .jb o
  | .jbe o => unary .jbe o
  | .push o => unary .push o
  | .pop o => unary .pop o
  | .hlt => noOperand .hlt
  | .ret => noOperand .ret
  | .asgn f => registerImmediate .asgn f
  | .asgnh f => registerImmediate .asgnh f
  | .asgnl f => registerImmediate .asgnl f

@[simp] theorem NoOperandOp.decoded_instr (t : OpTable) (m : NoOperandOp) :
    m.instr.decoded t = .noOperand (t.noOperandCode m) := by cases m <;> rfl

@[simp] theorem UnaryOp.decoded_instr (t : OpTable) (m : UnaryOp) (o : UnaryOperand) :
    (m.instr o).decoded t = .unary (t.unaryCode m) o := by cases m <;> rfl

@[simp] theorem BinomialOp.decoded_instr (t : OpTable) (m : BinomialOp) (f : BinomialFields) :
    (m.instr f).decoded t = .binomial (t.binomialCode m) f := by cases m <;> rfl

@[simp] theorem ThreeAddressOp.decoded_instr (t : OpTable) (m : ThreeAddressOp) (f : ThreeAddressFields) :
    (m.instr f).decoded t = .threeAddress (t.threeAddressCode m) f := by cases m <;> rfl

@[simp] theorem RegImmOp.decoded_instr (t : OpTable) (m : RegImmOp) (f : RegImmFields) :
    (m.instr f).decoded t = .registerImmediate (t.regImmCode m) f := by cases m <;> rfl

@[simp] theorem NoOperandOp.wf_instr (t : OpTable) (m : NoOperandOp) :
    m.instr.wf t = codeIsUnique t.noOperandCode NoOperandOp.all m := by cases m <;> rfl

@[simp] theorem UnaryOp.wf_instr (t : OpTable) (m : UnaryOp) (o : UnaryOperand) :
    (m.instr o).wf t = codeIsUnique t.unaryCode UnaryOp.all m := by cases m <;> rfl

@[simp] theorem BinomialOp.wf_instr (t : OpTable) (m : BinomialOp) (f : BinomialFields) :
    (m.instr f).wf t = codeIsUnique t.binomialCode BinomialOp.all m := by cases m <;> rfl

@[simp] theorem ThreeAddressOp.wf_instr (t : OpTable) (m : ThreeAddressOp) (f : ThreeAddressFields) :
    (m.instr f).wf t = codeIsUnique t.threeAddressCode ThreeAddressOp.all m := by cases m <;> rfl

@[simp] theorem RegImmOp.wf_instr (t : OpTable) (m : RegImmOp) (f : RegImmFields) :
    (m.instr f).wf t = codeIsUnique t.regImmCode RegImmOp.all m := by cases m <;> rfl

/-! ### Encoding and decoding instructions (R72, R92, R154) -/

/-- The fields of an instruction are never an undefined format. -/
theorem Instr.decoded_wf (t : OpTable) (i : Instr) : (i.decoded t).wf = true := by
  cases i using Instr.byFormat <;> simp [Decoded.wf]

/-- The dispatch on an instruction's own fields finds the instruction. -/
theorem select_decoded {t : OpTable} {i : Instr} (h : i.wf t = true) : select t (i.decoded t) = .ok i := by
  cases i using Instr.byFormat with
  | noOperand m => simp [select, selected, opOfCode_unique m.mem_all (by simpa using h)]
  | unary m o => simp [select, selected, opOfCode_unique m.mem_all (by simpa using h)]
  | binomial m f => simp [select, selected, opOfCode_unique m.mem_all (by simpa using h)]
  | threeAddress m f => simp [select, selected, opOfCode_unique m.mem_all (by simpa using h)]
  | registerImmediate m f => simp [select, selected, opOfCode_unique m.mem_all (by simpa using h)]

theorem decode_encode {t : OpTable} {i : Instr} (h : i.wf t = true) : decode t (encode t i) = .ok i := by
  rw [decode, encode, decodeFields_pack (i.decoded_wf t), select_decoded h]

/-- Under an injective table (R8) every instruction is well formed. -/
theorem Instr.wf_of_table_wf {t : OpTable} (h : t.wf = true) (i : Instr) : i.wf t = true := by
  simp only [OpTable.wf, Bool.and_eq_true, List.all_eq_true, and_assoc] at h
  obtain ⟨hthree, hunary, hbinomial, hnone, himm⟩ := h
  cases i using Instr.byFormat with
  | noOperand m => simpa using hnone m m.mem_all
  | unary m o => simpa using hunary m m.mem_all
  | binomial m f => simpa using hbinomial m m.mem_all
  | threeAddress m f => simpa using hthree m m.mem_all
  | registerImmediate m f => simpa using himm m m.mem_all

/-- Settles O4: the word has the instruction's fields, and the code among them selects its operation alone. -/
theorem instructionsSurviveEncodeAndDecode : Obligations.InstructionsSurviveEncodeAndDecode :=
  ⟨fun _ _ => decode_encode, Instr.wf_of_table_wf (by decide)⟩

/-- A row of the dispatch table answers an instruction exactly of an operation found. -/
theorem selected_eq_ok_iff {α : Type} {fmt : Format} {op : BitVec 5} {instr : α → Instr} {found : Option α}
    {i : Instr} : selected fmt op instr found = .ok i ↔ ∃ m, found = some m ∧ instr m = i := by
  cases found <;> simp [selected]

/-- The dispatch answers an instruction with the very fields it was given. -/
theorem decoded_of_select {t : OpTable} {d : Decoded} {i : Instr} (h : select t d = .ok i) : i.decoded t = d := by
  cases d with
  | badFormat fmt op rest => cases h
  | noOperand op | unary op o | binomial op f | threeAddress op f | registerImmediate op f =>
    obtain ⟨m, hm, rfl⟩ := selected_eq_ok_iff.1 h
    simp [code_of_opOfCode hm]

/-- Settles O5: the instruction has the fields of the word, and they pack to it without its unused bits. -/
theorem decodedWordIsTheInstructionsWord : Obligations.DecodedWordIsTheInstructionsWord := fun t w i h => by
  rw [encode, decoded_of_select h, pack_decodeFields]

/-! ### Which words are rejected (R78, R79) -/

/-- The name and the codes by which an answer of the decoder rejects its word, if it does. -/
def rejectionOf : Except DecodeReject Instr → Option DecodeReject
  | .ok _ => none
  | .error r => some r

theorem rejectionOf_eq_none_iff {x : Except DecodeReject Instr} : rejectionOf x = none ↔ ∃ i, x = .ok i := by
  cases x <;> simp [rejectionOf]

theorem rejectionOf_eq_some_iff {x : Except DecodeReject Instr} {r : DecodeReject} :
    rejectionOf x = some r ↔ x = .error r := by
  cases x <;> simp [rejectionOf]

/-- The rejection that a pair (format code, operation code) calls for under a table. -/
def rejectionOfCodes (t : OpTable) (fmt : BitVec 3) (op : BitVec 5) : Option DecodeReject :=
  if 5 ≤ fmt.toNat then some (.undefinedFormat fmt)
  else if holdsCode t fmt op then none
  else some (.undefinedOperation fmt op)

/-- A row of the dispatch table rejects exactly the codes of no operation. -/
theorem rejectionOf_selected {α : Type} (fmt : Format) (op : BitVec 5) (instr : α → Instr) (code : α → BitVec 5)
    (all : List α) : rejectionOf (selected fmt op instr (opOfCode code all op))
      = if all.any fun m => code m == op then none else some (.undefinedOperation fmt.code op) := by
  cases h : opOfCode code all op with
  | none =>
    simp only [opOfCode_eq_none.1 h]
    rfl
  | some m =>
    have hany : (all.any fun m => code m == op) = true :=
      List.any_eq_true.2 ⟨m, List.mem_of_find?_eq_some h, by simp [code_of_opOfCode h]⟩
    simp only [hany]
    rfl

/-- Whether a word is rejected, and by what name, depends on its format code and its operation code alone. -/
theorem rejectionOf_decode (t : OpTable) (w : Word) :
    rejectionOf (decode t w) = rejectionOfCodes t (bitField w 61 3) (bitField w 56 5) := by
  unfold decode rejectionOfCodes holdsCode
  fun_cases decodeFields w with
  | case6 fmt op h =>
    simp only [fmt, if_pos (Format.ofCode_eq_none_iff.1 h)]
    rfl
  | case1 fmt op h | case2 fmt op h | case3 fmt op h | case4 fmt op h | case5 fmt op h =>
    simp only [fmt] at h
    simp only [← Format.code_of_ofCode h, if_neg (Format.not_five_le_code _)]
    exact rejectionOf_selected ..

/-- Settles O8: the word is rejected as its pair of codes calls for. -/
theorem rejectedWordsByName : Obligations.RejectedWordsByName := by
  intro t w
  have hrej : rejectionOf (decode t w) = rejectionOfCodes t (w.extractLsb' 61 3) (w.extractLsb' 56 5) :=
    rejectionOf_decode t w
  refine ⟨fun hbad => ?_, fun hfmt => ?_⟩
  · rw [← rejectionOf_eq_some_iff, hrej, rejectionOfCodes, if_pos hbad]
  · rw [rejectionOfCodes, if_neg (by omega)] at hrej
    rw [← rejectionOf_eq_none_iff, ← rejectionOf_eq_some_iff, hrej]
    simp

/-- A field of the leading byte does not change when the other 56 bits are cleared. -/
theorem bitField_opcodeByte (w : Word) {lo n : Nat} (h : 56 ≤ lo) :
    bitField (w.extractLsb' 56 8 ++ 0#56) lo n = bitField w lo n := by
  have hw : (w.extractLsb' 56 8 ++ w.extractLsb' 0 56 : Word) = w :=
    BitVec.extractLsb'_append_extractLsb' (w := 8) (len := 56)
  calc bitField (w.extractLsb' 56 8 ++ 0#56) lo n
      = (w.extractLsb' 56 8).extractLsb' (lo - 56) n := extract_append_above _ _ h
    _ = bitField (w.extractLsb' 56 8 ++ w.extractLsb' 0 56) lo n := (extract_append_above _ _ h).symm
    _ = bitField w lo n := by rw [hw]

theorem rejectionOf_decode_opcodeByte (t : OpTable) (w : Word) :
    rejectionOf (decode t (w.extractLsb' 56 8 ++ 0#56)) = rejectionOf (decode t w) := by
  rw [rejectionOf_decode, rejectionOf_decode, bitField_opcodeByte w (by decide), bitField_opcodeByte w (by decide)]

/-- Settles O7: both codes stand in the leading byte, so one word for each of the 256 bytes is enough to count. -/
theorem opcodeByteMap : Obligations.OpcodeByteMap := by
  refine ⟨fun w => ⟨?_, fun r => ?_⟩, by decide +kernel, by decide +kernel, by decide +kernel⟩
  · rw [← rejectionOf_eq_none_iff, ← rejectionOf_eq_none_iff, rejectionOf_decode_opcodeByte]
  · rw [← rejectionOf_eq_some_iff, ← rejectionOf_eq_some_iff, rejectionOf_decode_opcodeByte]

/-- Settles O1: ten closed words, each decoded. -/
theorem specWordsDecode : Obligations.SpecWordsDecode := by
  unfold Obligations.SpecWordsDecode
  decide

end Sys2Proof

/-! ## Encoding: what has no effect, and the pseudo-instructions (O57, O58) -/

namespace Sys2Proof.Machine

/-! ### Options and flags (R69, R74) -/

theorem State.resolve_plain (s : State) (o : UnaryOperand) : s.resolve (UnaryOperand.plain o) = s.resolve o := by
  cases o <;> rfl

theorem writeBackReg_plain (o : UnaryOperand) : writeBackReg (UnaryOperand.plain o) = writeBackReg o := by
  cases o <;> rfl

theorem State.modify_plain (s : State) (o : UnaryOperand) (f : Word → Word) :
    s.modify (UnaryOperand.plain o) f = s.modify o f := by
  rw [State.modify, writeBackReg_plain, State.modify]

theorem State.jumpIf_plain (s : State) (taken : Bool) (o : UnaryOperand) :
    s.jumpIf taken (UnaryOperand.plain o) = s.jumpIf taken o := by
  rw [State.jumpIf, State.resolve_plain, State.jumpIf]

/-- The UNARY instructions use their operand through `resolve` and `writeBackReg` alone; of the fields of the other
formats no meaning reads a flag or an option. -/
theorem exec_plainInstr (i : Instr) (s : State) : exec (plainInstr i) s = exec i s := by
  cases i with
  | inc o => exact s.modify_plain o (· + 1#64)
  | dec o => exact s.modify_plain o (· - 1#64)
  | jmp o | jr o | je o | jne o | ja o | jae o | jb o | jbe o => exact s.jumpIf_plain _ o
  | call o => simp only [plainInstr, exec, execCall, State.resolve_plain]
  | push o => simp only [plainInstr, exec, execPush, State.resolve_plain]
  | pop o => simp only [plainInstr, exec, execPop, writeBackReg_plain]
  | _ => rfl

/-- Settles O57, instruction by instruction. -/
theorem optionsAndFlagsHaveNoEffect : Obligations.OptionsAndFlagsHaveNoEffect := exec_plainInstr

/-! ### The pseudo-instructions (R85) -/

/-- `cmp` sets `equal` exactly if the operands are equal (R116). -/
theorem getLsbD_compareFlags_equal (sourceBug : Bool) (a b w : Word) :
    (compareFlags sourceBug a b w).getLsbD equalBit = decide (a = b) := by
  have hequal : (setBit w equalBit (decide (a = b))).getLsbD equalBit = decide (a = b) := by
    rw [getLsbD_setBit, if_pos (by decide)]
  cases sourceBug with
  | true => exact hequal
  | false => exact (getLsbD_setBit _ aboveBit equalBit _).trans hequal

/-- `cmp` sets `above` exactly if the first operand is the larger, unless `CMP_SOURCE_BUG` is set (R116). -/
theorem getLsbD_compareFlags_above (a b w : Word) :
    (compareFlags false a b w).getLsbD aboveBit = decide (b < a) :=
  getLsbD_setBit _ aboveBit aboveBit _

theorem execCmp_equal {s t : State} {f : BinomialFields} (h : execCmp f s = .next t) :
    t.equal = decide (s.readReg f.r1 = s.readReg f.r2) := by
  cases h
  rw [State.equal, State.flag, State.readReg_writeReg_self _ (by decide), getLsbD_compareFlags_equal]

theorem execCmp_above {s t : State} {f : BinomialFields} (h : execCmp f s = .next t)
    (hbug : s.cfg.cmpSourceBug = false) : t.above = decide (s.readReg f.r2 < s.readReg f.r1) := by
  cases h
  rw [State.above, State.flag, State.readReg_writeReg_self _ (by decide), hbug, getLsbD_compareFlags_above]

/-- Adding slot 0 copies a register (R102, R15). -/
theorem execAdd_zero {s : State} {f : ThreeAddressFields} (h : f.rs2 = 0#7) :
    execAdd f s = .next (s.writeReg f.rd (s.readReg f.rs1)) := by
  simp [execAdd, State.threeAddress, h, Except.map]

/-- Settles O58: the texts are assembled, and slot 0 reads 0 in each of the three rewrites. -/
theorem pseudoInstructions : Obligations.PseudoInstructions := by
  refine ⟨by decide, by decide, by decide, by decide, by decide, fun s => rfl, fun s => ?_, fun d r s => ?_⟩
  · exact ⟨_, rfl, (execCmp_equal rfl).trans (by simp), fun hbug => (execCmp_above rfl hbug).trans (by simp)⟩
  · exact ⟨_, execAdd_zero rfl, onlyWrites_writeReg s d _⟩

end Sys2Proof.Machine

/-! ## Three-address: the results of the nine operations (O25 to O33) -/

namespace Sys2Proof.Machine

/-! ### The common execution (R101) -/

/-- A result is written to the destination. -/
theorem State.orRaise_map_of_ok {s : State} {d : RegId} {x : Except Exception Word} {r : Word} (h : x = .ok r) :
    s.orRaise (x.map (s.writeReg d)) = .next (s.writeReg d r) := by
  rw [h]
  rfl

/-- An exception is taken before the write. -/
theorem State.orRaise_map_of_error {s : State} {d : RegId} {x : Except Exception Word} {e : Exception}
    (h : x = .error e) : s.orRaise (x.map (s.writeReg d)) = .next (s.raise e) := by
  rw [h]
  rfl

section

variable (f : ThreeAddressFields) (s : State)

theorem exec_add : exec (.add f) s = .next (s.writeReg f.rd (s.readReg f.rs1 + s.readReg f.rs2)) := rfl

theorem exec_sub : exec (.sub f) s = .next (s.writeReg f.rd (s.readReg f.rs1 - s.readReg f.rs2)) := rfl

theorem exec_mul : exec (.mul f) s = .next (s.writeReg f.rd (s.readReg f.rs1 * s.readReg f.rs2)) := rfl

theorem exec_and : exec (.and f) s = .next (s.writeReg f.rd (s.readReg f.rs1 &&& s.readReg f.rs2)) := rfl

theorem exec_or : exec (.or f) s = .next (s.writeReg f.rd (s.readReg f.rs1 ||| s.readReg f.rs2)) := rfl

theorem exec_xor : exec (.xor f) s = .next (s.writeReg f.rd (s.readReg f.rs1 ^^^ s.readReg f.rs2)) := rfl

theorem exec_div : exec (.div f) s
    = s.orRaise ((divideBy s.cfg.div0Policy (s.readReg f.rs1) (s.readReg f.rs2)).map (s.writeReg f.rd)) := rfl

theorem exec_shr : exec (.shr f) s
    = s.orRaise ((shiftBy s.cfg.shiftPolicy (· >>> ·) (s.readReg f.rs1) (s.readReg f.rs2)).map (s.writeReg f.rd)) := rfl

/-- The amount is the source that `SHL_SOURCE_BUG` selects (R107). -/
theorem exec_shl : exec (.shl f) s
    = s.orRaise ((shiftBy s.cfg.shiftPolicy (· <<< ·) (s.readReg f.rs1) (shlAmount f s)).map (s.writeReg f.rd)) := rfl

end

/-! ### Addition, subtraction, multiplication (R102 to R104) -/

/-- The difference of two words is the integer difference, wrapped (D14). -/
theorem toNat_sub_eq_emod (a b : Word) : ((a - b).toNat : Int) = ((a.toNat : Int) - b.toNat) % 2 ^ 64 := by
  have ha := a.isLt
  have hb := b.isLt
  rw [BitVec.toNat_sub]
  omega

/-- Settles O25: the sum of two words wraps. -/
theorem addResult : Obligations.AddResult := fun f s =>
  ⟨_, _, exec_add f s, onlyWrites_writeReg s f.rd _, BitVec.toNat_add _ _⟩

/-- Settles O26: the minuend is source1, so the wrapped integer difference is the result. -/
theorem subResult : Obligations.SubResult := fun f s =>
  ⟨_, _, exec_sub f s, onlyWrites_writeReg s f.rd _, toNat_sub_eq_emod _ _⟩

/-- Settles O27: the product of two words keeps its low 64 bits. -/
theorem mulResult : Obligations.MulResult := fun f s =>
  ⟨_, _, exec_mul f s, onlyWrites_writeReg s f.rd _, BitVec.toNat_mul _ _⟩

/-! ### Division (R105) -/

theorem divideBy_of_ne_zero (p : Div0Policy) (a : Word) {b : Word} (h : b ≠ 0#64) : divideBy p a b = .ok (a / b) :=
  if_neg h

/-- The one value of `DIV0_POLICY` raises (D15). -/
theorem divideBy_zero (p : Div0Policy) (a : Word) : divideBy p a 0#64 = .error .divideByZero := by
  cases p
  rfl

/-- Settles O28: the division of words is the unsigned one. -/
theorem divResult : Obligations.DivResult := fun f s h =>
  ⟨_, _, (exec_div f s).trans (State.orRaise_map_of_ok (divideBy_of_ne_zero _ _ h)),
    onlyWrites_writeReg s f.rd _, BitVec.toNat_udiv⟩

/-- Settles O29: the division answers an exception, which is taken on the state before any write. -/
theorem divByZeroRaises : Obligations.DivByZeroRaises := fun f s h =>
  have herror : divideBy s.cfg.div0Policy (s.readReg f.rs1) (s.readReg f.rs2) = .error .divideByZero := by
    rw [h, divideBy_zero]
  ⟨_, (exec_div f s).trans (State.orRaise_map_of_error herror), takesException_raise s _⟩

/-! ### Shifts (R106, R107) -/

section

variable {policy : ShiftPolicy} {n : Word} (shift : Word → Nat → Word) (a : Word)

theorem shiftBy_of_lt (h : n.toNat < 64) : shiftBy policy shift a n = .ok (shift a n.toNat) := if_pos h

theorem shiftBy_fault (h : 64 ≤ n.toNat) (hp : policy = .fault) :
    shiftBy policy shift a n = .error (.shiftOutOfRange n) := by
  subst hp
  exact if_neg (Nat.not_lt.2 h)

theorem shiftBy_zero (h : 64 ≤ n.toNat) (hp : policy = .zero) : shiftBy policy shift a n = .ok 0#64 := by
  subst hp
  exact if_neg (Nat.not_lt.2 h)

/-- The low six bits of the amount (R106) are the amount modulo 64. -/
theorem shiftBy_mod64 (h : 64 ≤ n.toNat) (hp : policy = .mod64) :
    shiftBy policy shift a n = .ok (shift a (n.toNat % 64)) := by
  subst hp
  have hbits : (n.extractLsb' 0 6).toNat = n.toNat % 64 := by simp
  rw [← hbits]
  exact if_neg (Nat.not_lt.2 h)

end

theorem toNat_ushiftRight_eq_div (a : Word) (n : Nat) : (a >>> n).toNat = a.toNat / 2 ^ n := by
  rw [BitVec.toNat_ushiftRight, Nat.shiftRight_eq_div_pow]

theorem toNat_shiftLeft_eq_mul (a : Word) (n : Nat) : (a <<< n).toNat = (a.toNat * 2 ^ n) % 2 ^ 64 := by
  rw [BitVec.toNat_shiftLeft, Nat.shiftLeft_eq]

/-- An instruction that writes a shift of `a` by `n` goes by `SHIFT_POLICY` when the amount is 64 or more (R180). -/
theorem exec_shift_outOfRange {i : Instr} {s : State} {d : RegId} {shift : Word → Nat → Word} {a n : Word} {r : Nat}
    (hi : exec i s = s.orRaise ((shiftBy s.cfg.shiftPolicy shift a n).map (s.writeReg d)))
    (hr : (shift a (n.toNat % 64)).toNat = r) (hn : 64 ≤ n.toNat) :
    (s.cfg.shiftPolicy = .fault → ∃ t, exec i s = .next t ∧ TakesException s t (.shiftOutOfRange n))
    ∧ (s.cfg.shiftPolicy = .zero → ∃ t, exec i s = .next t ∧ OnlyWrites s t d 0#64)
    ∧ (s.cfg.shiftPolicy = .mod64 → ∃ t v, exec i s = .next t ∧ OnlyWrites s t d v ∧ v.toNat = r) := by
  refine ⟨fun hp => ?_, fun hp => ?_, fun hp => ?_⟩
  · exact ⟨_, hi.trans (State.orRaise_map_of_error (shiftBy_fault _ _ hn hp)), takesException_raise s _⟩
  · exact ⟨_, hi.trans (State.orRaise_map_of_ok (shiftBy_zero _ _ hn hp)), onlyWrites_writeReg s d _⟩
  · exact ⟨_, _, hi.trans (State.orRaise_map_of_ok (shiftBy_mod64 _ _ hn hp)), onlyWrites_writeReg s d _, hr⟩

/-- Settles O30: a logical right shift divides by a power of two. -/
theorem shrResult : Obligations.ShrResult := fun f s h =>
  ⟨_, _, (exec_shr f s).trans (State.orRaise_map_of_ok (shiftBy_of_lt _ _ h)),
    onlyWrites_writeReg s f.rd _, toNat_ushiftRight_eq_div _ _⟩

/-- Settles O31: a left shift multiplies by a power of two and wraps. -/
theorem shlResult : Obligations.ShlResult := fun f s h =>
  ⟨_, _, (exec_shl f s).trans (State.orRaise_map_of_ok (shiftBy_of_lt _ _ h)),
    onlyWrites_writeReg s f.rd _, toNat_shiftLeft_eq_mul _ _⟩

/-- Settles O32: both instructions shift by the whole amount, so one argument serves the two. -/
theorem shiftAmountOutOfRange : Obligations.ShiftAmountOutOfRange := fun f s =>
  ⟨exec_shift_outOfRange (exec_shr f s) (toNat_ushiftRight_eq_div _ _),
    exec_shift_outOfRange (exec_shl f s) (toNat_shiftLeft_eq_mul _ _)⟩

/-! ### Bitwise operations (R108 to R110) -/

/-- Settles O33: the three results bit by bit; the opcode bytes are those of R76. -/
theorem andOrXorResults : Obligations.AndOrXorResults := by
  intro f s
  refine ⟨⟨_, _, exec_and f s, onlyWrites_writeReg s f.rd _, fun k => BitVec.getLsbD_and⟩,
    ⟨_, _, exec_or f s, onlyWrites_writeReg s f.rd _, fun k => BitVec.getLsbD_or⟩,
    ⟨_, _, exec_xor f s, onlyWrites_writeReg s f.rd _, fun k => BitVec.getLsbD_xor⟩, ?_, ?_, ?_⟩
  · exact Laws.OpcodeByte.and f
  · exact Laws.OpcodeByte.or f
  · exact Laws.OpcodeByte.xor f

end Sys2Proof.Machine

/-! ## Binomial: complement, exchange and comparison (O34 to O37) -/

namespace Sys2Proof.Machine

/-! ### Complement (R114) -/

theorem exec_not (f : BinomialFields) (s : State) :
    exec (.not f) s = .next (s.writeReg f.r1 (~~~ s.readReg f.r2)) := rfl

/-- Settles O34: the complement is written to operand 1. -/
theorem notResult : Obligations.NotResult := fun f s =>
  ⟨⟨_, _, exec_not f s, onlyWrites_writeReg s f.r1 _, BitVec.toNat_not⟩, Laws.OpcodeByte.not f⟩

/-! ### Exchange (R115) -/

theorem exec_xchg_of_eq {f : BinomialFields} (h : f.r1 = f.r2) (s : State) : exec (.xchg f) s = .next s := if_pos h

theorem exec_xchg_of_ne {f : BinomialFields} (h : f.r1 ≠ f.r2) (s : State) :
    exec (.xchg f) s = .next ((s.writeReg f.r1 (s.readReg f.r2)).writeReg f.r2 (s.readReg f.r1)) := if_neg h

/-- For two distinct slots the order of the two writes does not matter. -/
theorem State.readReg_writeReg_writeReg (s : State) {a b : RegId} (h : a ≠ b) (v w : Word) (j : RegId) :
    ((s.writeReg a v).writeReg b w).readReg j
      = if j = 0#7 then 0#64 else if j = a then v else if j = b then w else s.readReg j := by
  by_cases ha : j = a
  · have hb : j ≠ b := fun hb => h (ha.symm.trans hb)
    rw [State.readReg_writeReg_ne _ hb, State.readReg_writeReg, if_pos ha, if_pos ha]
  · rw [State.readReg_writeReg, State.readReg_writeReg_ne _ ha, if_neg ha]

/-- Settles O35: nothing happens to one slot, and two distinct slots are written with values read before both writes. -/
theorem xchgSwaps : Obligations.XchgSwaps := by
  refine fun f s => ⟨?_, Laws.OpcodeByte.xchg f⟩
  by_cases h : f.r1 = f.r2
  · refine ⟨s, exec_xchg_of_eq h s, .refl s, fun j => ?_, fun _ => rfl⟩
    rw [← h]
    split_ifs with hzero hr1
    · rw [hzero, s.readReg_zero]
    · rw [hr1]
    · rfl
  · have hexec := exec_xchg_of_ne h s
    exact ⟨_, hexec, (execXchg_effect hexec).sameBesidesRegs, s.readReg_writeReg_writeReg h _ _,
      fun heq => absurd heq h⟩

/-! ### Comparison (R116) -/

/-- `cmp` writes slot 66 and nothing else. -/
theorem exec_cmp (f : BinomialFields) (s : State) :
    exec (.cmp f) s = .next (s.writeReg flagsSlot
      (compareFlags s.cfg.cmpSourceBug (s.readReg f.r1) (s.readReg f.r2) (s.readReg flagsSlot))) := rfl

/-- With `CMP_SOURCE_BUG` set, `cmp` leaves `above` (R116, D17). -/
theorem execCmp_above_of_bug {s t : State} {f : BinomialFields} (h : execCmp f s = .next t)
    (hbug : s.cfg.cmpSourceBug = true) : t.above = s.above := by
  cases h
  rw [State.above, State.flag, State.readReg_writeReg_self _ (by decide), hbug]
  exact getLsbD_setBit _ equalBit aboveBit _

/-- Settles O36: the one write is to slot 66, and `cmp` is known bit by bit there. -/
theorem cmpWritesFlags : Obligations.CmpWritesFlags := by
  intro f s
  have hexec := exec_cmp f s
  refine ⟨_, hexec, (onlyRegsChange_writeReg s flagsSlot _).sameBesidesRegs, regsSameExcept_writeReg s flagsSlot _,
    ?_, fun hbug => ?_, execCmp_above_of_bug hexec, fun k hk => ?_⟩
  · rw [execCmp_equal hexec, decide_eq_true_iff]
  · rw [execCmp_above hexec hbug, decide_eq_true_iff, BitVec.lt_def]
  · exact execCmp_flag_ne hexec (by unfold equalBit; omega) (by unfold aboveBit; omega)

/-! ### The conditions after a comparison (R117) -/

theorem Condition.holds_of_equal (c : Condition) : c.holds true false = decide (c = .e ∨ c = .ae ∨ c = .be) := by
  cases c <;> rfl

theorem Condition.holds_of_above (c : Condition) : c.holds false true = decide (c = .ne ∨ c = .a ∨ c = .ae) := by
  cases c <;> rfl

theorem Condition.holds_of_below (c : Condition) : c.holds false false = decide (c = .ne ∨ c = .b ∨ c = .be) := by
  cases c <;> rfl

/-- Settles O37: each relation of the operands fixes both flags, and these the conditions. -/
theorem cmpThenConditions : Obligations.CmpThenConditions := by
  intro f s t hbug h
  have hequal := execCmp_equal h
  have habove := execCmp_above h hbug
  refine ⟨fun heq c => ?_, fun hgt c => ?_, fun hlt c => ?_⟩
  · have hnot : ¬ s.readReg f.r2 < s.readReg f.r1 := by simp [heq]
    rw [hequal, habove, decide_eq_true heq, decide_eq_false hnot, c.holds_of_equal]
  · have hne : s.readReg f.r1 ≠ s.readReg f.r2 := fun heq => hgt.ne' (congrArg BitVec.toNat heq)
    rw [hequal, habove, decide_eq_false hne, decide_eq_true (BitVec.lt_def.2 hgt), c.holds_of_above]
  · have hne : s.readReg f.r1 ≠ s.readReg f.r2 := fun heq => hlt.ne (congrArg BitVec.toNat heq)
    have hnot : ¬ s.readReg f.r2 < s.readReg f.r1 := fun hgt => hlt.asymm (BitVec.lt_def.1 hgt)
    rw [hequal, habove, decide_eq_false hne, decide_eq_false hnot, c.holds_of_below]

end Sys2Proof.Machine

/-! ## Unary: results, jumps and stack transfers (O38 to O44, O46) -/

namespace Sys2Proof.Machine

/-! ### Operands that have no value or cannot be written (R120, R121) -/

/-- The first step of a meaning raises, so nothing after it happens. -/
theorem State.orRaise_bind_of_error {α : Type} {s : State} {x : Except Exception α} {e : Exception} (h : x = .error e)
    (rest : α → Except Exception State) : s.orRaise (x >>= rest) = .next (s.raise e) := by
  rw [h]
  rfl

theorem State.modify_of_error {s : State} {o : UnaryOperand} {e : Exception} (h : writeBackReg o = .error e)
    (f : Word → Word) : s.modify o f = .next (s.raise e) := by
  rw [State.modify, h]
  rfl

/-- The operand is resolved first, so a jump that would not be taken raises too (R127). -/
theorem State.jumpIf_of_error {s : State} {o : UnaryOperand} {e : Exception} (h : s.resolve o = .error e)
    (taken : Bool) : s.jumpIf taken o = .next (s.raise e) := by
  rw [State.jumpIf, h]
  rfl

/-- `inc`, `dec` and `pop` look for the register to write before anything else. -/
theorem exec_writeBack_of_error {s : State} {o : UnaryOperand} {e : Exception} {i : Instr}
    (h : writeBackReg o = .error e) (hi : i ∈ writeBackInstrs o) : exec i s = .next (s.raise e) := by
  obtain rfl | rfl | rfl : i = .inc o ∨ i = .dec o ∨ i = .pop o := by simpa [writeBackInstrs] using hi
  · exact State.modify_of_error h (· + 1#64)
  · exact State.modify_of_error h (· - 1#64)
  · exact State.orRaise_bind_of_error h _

/-- The other ten UNARY instructions resolve their operand before anything else, so all thirteen raise. -/
theorem exec_unary_of_error {s : State} {o : UnaryOperand} {e : Exception} {i : Instr}
    (hvalue : s.resolve o = .error e) (hreg : writeBackReg o = .error e) (hi : i ∈ unaryInstrs o) :
    exec i s = .next (s.raise e) := by
  obtain ⟨m, -, rfl⟩ := List.mem_map.1 hi
  cases m with
  | inc | dec | pop => exact exec_writeBack_of_error hreg (by simp [UnaryOp.instr, writeBackInstrs])
  | jmp | jr | je | jne | ja | jae | jb | jbe => exact State.jumpIf_of_error hvalue _
  | call | push => exact State.orRaise_bind_of_error hvalue _

/-- Settles O39: neither subtype has a value or a register, and every UNARY instruction asks for one of the two first. -/
theorem unaryOperandWithoutValueRaises : Obligations.UnaryOperandWithoutValueRaises := fun s =>
  ⟨fun _ _ _ hi => ⟨_, exec_unary_of_error rfl rfl hi, takesException_raise s _⟩,
    fun _ _ hi => ⟨_, exec_unary_of_error rfl rfl hi, takesException_raise s _⟩⟩

/-- Settles O40: an immediate names no register to write. -/
theorem writeBackToImmediateRaises : Obligations.WriteBackToImmediateRaises := fun s _ _ hi =>
  ⟨_, exec_writeBack_of_error rfl hi, takesException_raise s _⟩

/-! ### Increment and decrement (R122, R123) -/

theorem exec_inc_register (reg : RegId) (opt : BitVec 47) (s : State) :
    exec (.inc (.register reg opt)) s = .next (s.writeReg reg (s.readReg reg + 1#64)) := rfl

theorem exec_dec_register (reg : RegId) (opt : BitVec 47) (s : State) :
    exec (.dec (.register reg opt)) s = .next (s.writeReg reg (s.readReg reg - 1#64)) := rfl

/-- Taking one away is adding `2^64 - 1` (D14). -/
theorem toNat_sub_one_eq_mod (a : Word) : (a - 1#64).toNat = (a.toNat + (2 ^ 64 - 1)) % 2 ^ 64 := by
  rw [BitVec.toNat_sub, Nat.add_comm]
  rfl

/-- Settles O38: each is one write of the wrapped sum or difference. -/
theorem incDecResults : Obligations.IncDecResults := fun reg opt s =>
  ⟨⟨_, _, exec_inc_register reg opt s, onlyWrites_writeReg s reg _, BitVec.toNat_add _ _⟩,
    _, _, exec_dec_register reg opt s, onlyWrites_writeReg s reg _, toNat_sub_one_eq_mod _⟩

/-! ### Jumps (R125 to R133) -/

theorem State.jumpIf_of_value {s : State} {o : UnaryOperand} {v : Word} (h : OperandValue s o v) (taken : Bool) :
    s.jumpIf taken o = .next (if taken then s.setIp v else s) := by
  rw [State.jumpIf, State.resolve_of_value h]
  rfl

theorem onlyJumps_setIp (s : State) (v : Word) : OnlyJumps s (s.setIp v) v := onlyWrites_writeReg s ipSlot v

/-- Settles O41: both are the jump that is always taken. -/
theorem jmpAndJrJump : Obligations.JmpAndJrJump := by
  refine fun o s => ⟨fun v hv => ?_, Laws.OpcodeByte.jmp o, Laws.OpcodeByte.jr o⟩
  have hjump : s.jumpIf true o = .next (s.setIp v) := State.jumpIf_of_value hv true
  exact ⟨⟨_, hjump, onlyJumps_setIp s v⟩, _, hjump, onlyJumps_setIp s v⟩

/-- A conditional jump is taken exactly if its condition holds of the flags (R127). -/
theorem jumpsExactlyIf_of_jumpOn {s : State} {i : Instr} {c : Condition} {o : UnaryOperand} {v : Word} {taken : Prop}
    (hv : OperandValue s o v) (hi : exec i s = s.jumpOn c o) (hc : c.holds s.equal s.above = true ↔ taken) :
    JumpsExactlyIf s i v taken := by
  refine ⟨_, hi.trans (State.jumpIf_of_value hv _), fun h => ?_, fun h => ?_⟩
  · rw [if_pos (hc.2 h)]
    exact onlyJumps_setIp s v
  · rw [if_neg (mt hc.1 h)]

/-- Settles O42: the six conditions, read off the table of R127. -/
theorem conditionalJumpTable : Obligations.ConditionalJumpTable := by
  intro o s v hv
  refine ⟨jumpsExactlyIf_of_jumpOn (c := .e) hv rfl ?_, jumpsExactlyIf_of_jumpOn (c := .ne) hv rfl ?_,
    jumpsExactlyIf_of_jumpOn (c := .a) hv rfl ?_, jumpsExactlyIf_of_jumpOn (c := .ae) hv rfl ?_,
    jumpsExactlyIf_of_jumpOn (c := .b) hv rfl ?_, jumpsExactlyIf_of_jumpOn (c := .be) hv rfl ?_⟩
  all_goals simp [Condition.holds]

/-! ### Pushes (R48, R124, R134) -/

/-- With room, `Push` appends the bytes (R48). -/
theorem State.push_of_room {s : State} (h : HasRoom s) (v : Word) :
    s.push s.cfg.pushBytes v = .ok { s with stack := s.stack ++ leBytes s.cfg.pushBytes.bytes v } := by
  obtain ⟨-, hpush⟩ | ⟨hfull, -⟩ := s.push_cases s.cfg.pushBytes v
  · exact hpush
  · cases hmax : s.cfg.stackMax with
    | none => simp [hmax, fitsStack] at hfull
    | some m =>
      have hroom := h m hmax
      simp only [hmax, fitsStack, decide_eq_false_iff_not] at hfull
      exact absurd hroom hfull

theorem leBytes_getElem? {n k : Nat} (h : k < n) (v : Word) : (leBytes n v)[k]? = some (v.extractLsb' (8 * k) 8) := by
  simp [leBytes, h]

/-- A stack with the bytes of `v` appended is the outcome of a push, whatever the rest of the state is. -/
theorem pushes_of_stack_eq {s t : State} {v : Word} (h : t.stack = s.stack ++ leBytes s.cfg.pushBytes.bytes v) :
    Pushes s t v := by
  refine ⟨by simp [h], fun k hk => ?_, fun k hk => ?_⟩
  · rw [State.stackByte, h]
    exact List.getElem?_append_left hk
  · rw [State.stackByte, h, List.getElem?_append_right (by omega), Nat.add_sub_cancel_left, leBytes_getElem? hk]

theorem exec_call_of_push {s u : State} {o : UnaryOperand} {v : Word} (hv : OperandValue s o v)
    (hpush : s.push s.cfg.pushBytes s.ip = .ok u) : exec (.call o) s = .next (u.setIp v) := by
  simp [exec, execCall, State.resolve_of_value hv, hpush, bind, Except.bind, pure, Except.pure]

theorem exec_push_of_push {s u : State} {o : UnaryOperand} {v : Word} (hv : OperandValue s o v)
    (hpush : s.push s.cfg.pushBytes v = .ok u) : exec (.push o) s = .next u := by
  simp [exec, execPush, State.resolve_of_value hv, hpush, bind, Except.bind]

/-- Settles O43: the push appends the instruction pointer, and the jump that follows writes slot 65 alone. -/
theorem callPushesAndJumps : Obligations.CallPushesAndJumps := by
  intro o s v hv hroom
  refine ⟨_, exec_call_of_push hv (State.push_of_room hroom s.ip), pushes_of_stack_eq (State.setIp_stack _ v),
    State.ip_setIp _ v, ?_, State.setIp_fault _ v, State.setIp_image _ v, State.setIp_cfg _ v⟩
  exact regsSameExcept_writeReg { s with stack := _ } ipSlot v

/-- Settles O44: the push changes the stack alone. -/
theorem pushStoresOnTop : Obligations.PushStoresOnTop := fun _ _ v hv hroom =>
  ⟨_, exec_push_of_push hv (State.push_of_room hroom v), pushes_of_stack_eq rfl, fun _ _ => rfl, rfl, rfl, rfl⟩

/-! ### Pops (R49, R135) -/

/-- Eight bytes or fewer fit a word. -/
theorem leValue_toNat_lt {bytes : List Byte} (h : bytes.length ≤ 8) : (leValue bytes).toNat < 2 ^ (8 * bytes.length) := by
  induction bytes with
  | nil => decide
  | cons b bytes ih =>
    rw [List.length_cons] at h
    have htail := ih (by omega)
    have hbound : 2 ^ (8 * bytes.length) ≤ 2 ^ 56 := Nat.pow_le_pow_right (by decide) (by omega)
    have hb := b.isLt
    have hpow : 2 ^ (8 * (bytes.length + 1)) = 2 ^ (8 * bytes.length) * 2 ^ 8 := Nat.pow_add 2 _ 8
    rw [leValue_cons_toNat b bytes (by omega), List.length_cons, hpow]
    omega

/-- The value of bytes in little-endian order, as the sum of R47. -/
theorem leValue_toNat_eq_sum {bytes : List Byte} (h : bytes.length ≤ 8) : (leValue bytes).toNat
    = ((List.range bytes.length).map fun k => (bytes[k]?.getD 0).toNat * 2 ^ (8 * k)).sum := by
  induction bytes with
  | nil => rfl
  | cons b bytes ih =>
    rw [List.length_cons] at h
    have htail : (leValue bytes).toNat < 2 ^ (8 * bytes.length) := leValue_toNat_lt (by omega)
    have hbound : 2 ^ (8 * bytes.length) ≤ 2 ^ 56 := Nat.pow_le_pow_right (by decide) (by omega)
    rw [leValue_cons_toNat b bytes (by omega), ih (by omega), List.length_cons, List.range_succ_eq_map,
      List.map_cons, List.sum_cons, List.map_map, ← List.sum_map_mul_right, Nat.add_comm]
    simp [Function.comp_def, Nat.mul_add, Nat.pow_add, Nat.mul_assoc]

/-- With enough bytes, `Pop` takes the top of the stack (R49). -/
theorem State.pop_of_le {s : State} {n : Quantity} (h : n.bytes ≤ s.stack.length) :
    s.pop n = .ok (leValue (s.stack.drop (s.stack.length - n.bytes)),
      { s with stack := s.stack.take (s.stack.length - n.bytes) }) := by
  obtain ⟨-, hpop⟩ | ⟨hlt, -⟩ := s.pop_cases n
  · exact hpop
  · omega

/-- The top bytes of a stack have their sum as value, and below them are the bytes that a pop leaves. -/
theorem pops_of_stack_eq {s t : State} (hle : s.cfg.pushBytes.bytes ≤ s.stack.length)
    (h : t.stack = s.stack.take (s.stack.length - s.cfg.pushBytes.bytes)) :
    Pops s t (leValue (s.stack.drop (s.stack.length - s.cfg.pushBytes.bytes))) := by
  have hlen : t.stack.length = s.stack.length - s.cfg.pushBytes.bytes := by simp [h]
  refine ⟨by omega, fun k hk => ?_, ?_⟩
  · rw [State.stackByte, h]
    exact List.getElem?_take_of_lt (hlen ▸ hk)
  · have htop : (s.stack.drop (s.stack.length - s.cfg.pushBytes.bytes)).length = s.cfg.pushBytes.bytes := by
      rw [List.length_drop]
      omega
    have hsize := Quantity.bytes_cases s.cfg.pushBytes
    rw [leValue_toNat_eq_sum (by omega), htop, hlen]
    simp only [List.getElem?_drop, State.stackByte]

theorem exec_pop_of_pop {s : State} {reg : RegId} {opt : BitVec 47} {p : Word × State}
    (hpop : s.pop s.cfg.pushBytes = .ok p) : exec (.pop (.register reg opt)) s = .next (p.2.writeReg reg p.1) := by
  simp [exec, execPop, writeBackReg, hpop, bind, Except.bind, pure, Except.pure]

/-- Settles O46: the pop moves the top of the stack off, and the write that follows changes one register. -/
theorem popLoadsFromTop : Obligations.PopLoadsFromTop := fun reg _ _ hle =>
  ⟨_, _, exec_pop_of_pop (State.pop_of_le hle), pops_of_stack_eq hle (State.writeReg_stack _ reg _),
    fun j => State.readReg_writeReg _ reg j _, State.writeReg_fault _ reg _, State.writeReg_image _ reg _,
    State.writeReg_cfg _ reg _⟩

end Sys2Proof.Machine

/-! ## Without operands: `ret` and `hlt` (O47, O50) -/

namespace Sys2Proof.Machine

/-! ### Return (R142) -/

theorem exec_ret_of_pop {s : State} {p : Word × State} (hpop : s.pop s.cfg.pushBytes = .ok p) :
    exec .ret s = .next (p.2.setIp p.1) := by
  simp [exec, execRet, hpop, bind, Except.bind, pure, Except.pure]

/-- Settles O47: the pop takes the top of the stack off, and the jump to it writes slot 65 alone. -/
theorem retPopsInstructionPointer : Obligations.RetPopsInstructionPointer := by
  intro s hle
  have hpop := State.pop_of_le hle
  refine ⟨_, exec_ret_of_pop hpop, ?_, ?_, State.setIp_fault _ _, State.setIp_image _ _, State.setIp_cfg _ _⟩
  · rw [State.ip_setIp]
    exact pops_of_stack_eq hle (State.setIp_stack _ _)
  · exact (storesOnlyTo_writeReg_of_regs_eq (State.regs_of_pop hpop) (List.mem_singleton_self ipSlot) _).regsSameExcept

/-! ### Stopped machines (R151, R157, R160) -/

theorem State.stopped_of_halt {s : State} (h : s.halt = true) : s.stopped = true := by simp [State.stopped, h]

theorem step_of_stopped {s : State} (h : s.stopped = true) : step s = .next s := if_pos h

theorem State.runState_of_halt {s : State} (hfault : s.fault = none) (hhalt : s.halt = true) :
    s.runState = .halted := by
  simp [State.runState, hfault, hhalt]

theorem State.runState_ne_run_of_stopped {s : State} (h : s.stopped = true) : s.runState ≠ .run := by
  cases hfault : s.fault with
  | some e => simp [State.runState, hfault]
  | none =>
    have hhalt : s.halt = true := by simpa [State.stopped, hfault] using h
    simp [State.runState_of_halt hfault hhalt]

/-- Outside RUN the loop ends at once, with any fuel. -/
theorem runLoop_of_ne_run {s : State} (h : s.runState ≠ .run) (fuel : Nat) : runLoop fuel s = some s := by
  cases fuel with
  | zero => exact if_neg h
  | succ fuel => exact if_neg h

/-! ### Halt (R141) -/

theorem exec_hlt (s : State) : exec .hlt s = .next (s.setFlag haltBit true) := rfl

theorem State.halt_setFlag (s : State) (b : Bool) : (s.setFlag haltBit b).halt = b :=
  (s.flag_setFlag haltBit haltBit b).trans (if_pos (by decide))

theorem onlyRegsChange_setFlag (s : State) (k : Nat) (b : Bool) : OnlyRegsChange s (s.setFlag k b) :=
  onlyRegsChange_writeReg s flagsSlot _

theorem regsSameExcept_setFlag (s : State) (k : Nat) (b : Bool) : RegsSameExcept s (s.setFlag k b) [flagsSlot] :=
  regsSameExcept_writeReg s flagsSlot _

/-- Settles O50: `hlt` writes one bit of slot 66, and a machine with that bit set is stopped. -/
theorem hltSetsHalt : Obligations.HltSetsHalt := by
  refine ⟨fun s => ?_, by decide⟩
  have hexec := exec_hlt s
  have hhalt := s.halt_setFlag true
  have hstopped := State.stopped_of_halt hhalt
  exact ⟨_, hexec, (onlyRegsChange_setFlag s haltBit true).sameBesidesRegs, regsSameExcept_setFlag s haltBit true,
    hhalt, fun _ hk => execHlt_flag_ne hexec hk,
    fun hfault => State.runState_of_halt ((s.setFlag_fault haltBit true).trans hfault) hhalt,
    step_of_stopped hstopped, runLoop_of_ne_run (State.runState_ne_run_of_stopped hstopped) 0⟩

end Sys2Proof.Machine

/-! ## Register and immediate: results, and a constant from its two halves (O51, O52) -/

namespace Sys2Proof.Machine

/-! ### The halves of a word -/

@[simp] theorem upperHalf_append (a b : BitVec 32) : upperHalf (a ++ b) = a :=
  (extract_append_above a b (Nat.le_refl 32)).trans BitVec.extractLsb'_eq_self

@[simp] theorem lowerHalf_append (a b : BitVec 32) : lowerHalf (a ++ b) = b := extract_append_last a b

@[simp] theorem upperHalf_append_lowerHalf (w : Word) : upperHalf w ++ lowerHalf w = w :=
  (BitVec.extractLsb'_append_extractLsb'_eq_extractLsb' rfl).trans BitVec.extractLsb'_eq_self

theorem toNat_append_halves (a b : BitVec 32) : (a ++ b).toNat = a.toNat * 2 ^ 32 + b.toNat := by
  rw [BitVec.toNat_append, ← Nat.shiftLeft_add_eq_or_of_lt b.isLt, Nat.shiftLeft_eq]

theorem toNat_immHalf (imm : BitVec 49) : (immHalf imm).toNat = imm.toNat % 2 ^ 32 := BitVec.extractLsb'_toNat 0 32 imm

theorem toNat_lowerHalf (w : Word) : (lowerHalf w).toNat = w.toNat % 2 ^ 32 := BitVec.extractLsb'_toNat 0 32 w

/-- Above the lower 32 of 64 bits there are only 32 more. -/
theorem toNat_upperHalf (w : Word) : (upperHalf w).toNat = w.toNat / 2 ^ 32 := by
  have hw := w.isLt
  rw [upperHalf, BitVec.extractLsb'_toNat, Nat.shiftRight_eq_div_pow]
  omega

/-! ### Results (R146 to R148) -/

section
variable (f : RegImmFields) (s : State)

theorem exec_asgn : exec (.asgn f) s = .next (s.writeReg f.reg (f.imm49.setWidth 64)) := rfl

theorem exec_asgnh :
    exec (.asgnh f) s = .next (s.writeReg f.reg (immHalf f.imm49 ++ lowerHalf (s.readReg f.reg))) := rfl

theorem exec_asgnl :
    exec (.asgnl f) s = .next (s.writeReg f.reg (upperHalf (s.readReg f.reg) ++ immHalf f.imm49)) := rfl

end

/-- Settles O51: each is one write, of the extended immediate or of one half of it beside the half that is kept. -/
theorem asgnFamilyResults : Obligations.AsgnFamilyResults := by
  refine fun f s => ⟨⟨_, _, exec_asgn f s, onlyWrites_writeReg s f.reg _, ?_⟩,
    ⟨_, _, exec_asgnh f s, onlyWrites_writeReg s f.reg _, ?_⟩,
    _, _, exec_asgnl f s, onlyWrites_writeReg s f.reg _, ?_⟩
  · exact BitVec.toNat_setWidth_of_le (by decide)
  · rw [toNat_append_halves, toNat_immHalf, toNat_lowerHalf]
  · rw [toNat_append_halves, toNat_upperHalf, toNat_immHalf]

/-! ### A constant from its two halves (R149) -/

theorem readReg_of_asgnh {reg : RegId} {imm : BitVec 49} {s t : State} (hreg : reg ≠ 0#7)
    (h : exec (.asgnh ⟨reg, imm⟩) s = .next t) : t.readReg reg = immHalf imm ++ lowerHalf (s.readReg reg) := by
  cases h
  exact s.readReg_writeReg_self hreg _

theorem readReg_of_asgnl {reg : RegId} {imm : BitVec 49} {s t : State} (hreg : reg ≠ 0#7)
    (h : exec (.asgnl ⟨reg, imm⟩) s = .next t) : t.readReg reg = upperHalf (s.readReg reg) ++ immHalf imm := by
  cases h
  exact s.readReg_writeReg_self hreg _

/-- Settles O52: the second of the two keeps the half that the first has written. -/
theorem constantFromTwoHalves : Obligations.ConstantFromTwoHalves := by
  rintro K ⟨reg, immLo⟩ ⟨_, immHi⟩ s t u hreg rfl hlo hhi
  have hlower : immHalf immLo = lowerHalf K := hlo
  have hupper : immHalf immHi = upperHalf K := hhi
  refine ⟨fun hfirst hsecond => ?_, fun hfirst hsecond => ?_⟩
  · rw [readReg_of_asgnh hreg hsecond, readReg_of_asgnl hreg hfirst, lowerHalf_append, hlower, hupper,
      upperHalf_append_lowerHalf]
  · rw [readReg_of_asgnl hreg hsecond, readReg_of_asgnh hreg hfirst, upperHalf_append, hlower, hupper,
      upperHalf_append_lowerHalf]

end Sys2Proof.Machine

/-! ## Control: the cycle, the run states, the run loop and the latch (O13 to O18, O22) -/

namespace Sys2Proof.Machine

/-! ### What an instruction raises (R171, R174 to R182) -/

/-- A read of the operand fails only for a subtype without value, which all UNARY instructions refuse (R120). -/
theorem instrRaises_of_resolve_error {s : State} {i : Instr} {o : UnaryOperand} (hi : i ∈ unaryInstrs o) {e : Exception}
    (h : s.resolve o = .error e) : InstrRaises s i e := by
  cases o with
  | register reg opt | immediate imm54 => cases h
  | pointer reg opt => cases h; exact ⟨opt, hi⟩
  | reserved payload => cases h; exact ⟨payload, hi⟩

theorem instr_mem_unaryInstrs (m : UnaryOp) (o : UnaryOperand) : m.instr o ∈ unaryInstrs o :=
  List.mem_map_of_mem m.mem_all

theorem mem_unaryInstrs_of_mem_writeBackInstrs {i : Instr} {o : UnaryOperand} (h : i ∈ writeBackInstrs o) :
    i ∈ unaryInstrs o := by
  obtain rfl | rfl | rfl : i = .inc o ∨ i = .dec o ∨ i = .pop o := by simpa [writeBackInstrs] using h
  · exact instr_mem_unaryInstrs .inc o
  · exact instr_mem_unaryInstrs .dec o
  · exact instr_mem_unaryInstrs .pop o

/-- An operand has no register to write if it has no value or is an immediate (R121). -/
theorem instrRaises_of_writeBackReg_error {s : State} {i : Instr} {o : UnaryOperand} (hi : i ∈ writeBackInstrs o)
    {e : Exception} (h : writeBackReg o = .error e) : InstrRaises s i e := by
  cases o with
  | register reg opt => cases h
  | immediate imm54 => cases h; exact ⟨imm54, hi⟩
  | pointer reg opt | reserved payload =>
    cases h
    exact ⟨_, mem_unaryInstrs_of_mem_writeBackInstrs hi⟩

theorem State.instrRaises_of_push_error {s : State} {i : Instr} (hi : stackUse i = .push) {v : Word} {e : Exception}
    (h : s.push s.cfg.pushBytes v = .error e) : InstrRaises s i e := by
  obtain ⟨-, heq⟩ | ⟨hfull, heq⟩ := s.push_cases s.cfg.pushBytes v
  · cases heq.symm.trans h
  · cases heq.symm.trans h
    cases hmax : s.cfg.stackMax with
    | none => simp [hmax, fitsStack] at hfull
    | some m => exact ⟨rfl, hi, m, hmax, by simpa [hmax, fitsStack] using hfull⟩

theorem State.instrRaises_of_pop_error {s : State} {i : Instr} (hi : stackUse i = .pop) {e : Exception}
    (h : s.pop s.cfg.pushBytes = .error e) : InstrRaises s i e := by
  obtain ⟨-, heq⟩ | ⟨hshort, heq⟩ := s.pop_cases s.cfg.pushBytes
  · cases heq.symm.trans h
  · cases heq.symm.trans h
    exact ⟨rfl, hshort, hi⟩

theorem eq_divideByZero_of_divideBy_error {p : Div0Policy} {a b : Word} {e : Exception} (h : divideBy p a b = .error e) :
    b = 0#64 ∧ e = .divideByZero := by
  by_cases hb : b = 0#64
  · subst hb
    cases (divideBy_zero p a).symm.trans h
    exact ⟨rfl, rfl⟩
  · cases (divideBy_of_ne_zero p a hb).symm.trans h

theorem instrRaises_div {f : ThreeAddressFields} {s : State} {e : Exception}
    (h : divideBy s.cfg.div0Policy (s.readReg f.rs1) (s.readReg f.rs2) = .error e) : InstrRaises s (.div f) e := by
  obtain ⟨hzero, rfl⟩ := eq_divideByZero_of_divideBy_error h
  exact ⟨by cases s.cfg.div0Policy; rfl, f, rfl, hzero⟩

/-- Of the three policies only `fault` raises, and only for an amount of 64 or more (R180). -/
theorem eq_shiftOutOfRange_of_shiftBy_error {p : ShiftPolicy} {shift : Word → Nat → Word} {a n : Word} {e : Exception}
    (h : shiftBy p shift a n = .error e) : p = .fault ∧ 64 ≤ n.toNat ∧ e = .shiftOutOfRange n := by
  by_cases hn : n.toNat < 64
  · cases (shiftBy_of_lt shift a hn).symm.trans h
  · have hn := Nat.not_lt.1 hn
    cases p with
    | fault => cases (shiftBy_fault shift a hn rfl).symm.trans h; exact ⟨rfl, hn, rfl⟩
    | zero => cases (shiftBy_zero shift a hn rfl).symm.trans h
    | mod64 => cases (shiftBy_mod64 shift a hn rfl).symm.trans h

theorem instrRaises_shr {f : ThreeAddressFields} {s : State} {e : Exception}
    (h : shiftBy s.cfg.shiftPolicy (· >>> ·) (s.readReg f.rs1) (s.readReg f.rs2) = .error e) :
    InstrRaises s (.shr f) e := by
  obtain ⟨hp, hn, rfl⟩ := eq_shiftOutOfRange_of_shiftBy_error h
  exact ⟨hp, hn, f, .inl ⟨rfl, rfl⟩⟩

theorem instrRaises_shl {f : ThreeAddressFields} {s : State} {e : Exception}
    (h : shiftBy s.cfg.shiftPolicy (· <<< ·) (s.readReg f.rs1) (shlAmount f s) = .error e) :
    InstrRaises s (.shl f) e := by
  obtain ⟨hp, hn, rfl⟩ := eq_shiftOutOfRange_of_shiftBy_error h
  exact ⟨hp, hn, f, .inr ⟨rfl, rfl⟩⟩

/-! ### Every instruction answers a state, or the exception it raises -/

/-- What holds of the answer that a meaning computes before any exception is taken: a state has the latch as it was, and an
exception is one that the instruction raises. -/
def AnswerSound (s : State) (i : Instr) : Except Exception State → Prop
  | .ok t => t.fault = s.fault
  | .error e => InstrRaises s i e

section

variable {s : State} {i : Instr} {α : Type} {x : Except Exception α}

theorem AnswerSound.bind {k : α → Except Exception State} (herror : ∀ {e}, x = .error e → InstrRaises s i e)
    (hok : ∀ a, x = .ok a → AnswerSound s i (k a)) : AnswerSound s i (x >>= k) := by
  cases x with
  | ok a => exact hok a rfl
  | error e => exact herror rfl

theorem AnswerSound.map {g : α → State} (herror : ∀ {e}, x = .error e → InstrRaises s i e)
    (hg : ∀ a, (g a).fault = s.fault) : AnswerSound s i (x.map g) := by
  cases x with
  | ok a => exact hg a
  | error e => exact herror rfl

end

theorem State.fault_of_push {s u : State} {n : Quantity} {v : Word} (h : s.push n v = .ok u) : u.fault = s.fault := by
  rw [State.eq_of_push_ok h]

theorem State.fault_of_pop {s : State} {n : Quantity} {p : Word × State} (h : s.pop n = .ok p) :
    p.2.fault = s.fault := by
  rw [(State.eq_of_pop_ok h).2]

/-- A jump leaves the latch, taken or not. -/
theorem State.fault_jumpTarget (s : State) (taken : Bool) (v : Word) :
    (if taken then s.setIp v else s).fault = s.fault := by
  cases taken with
  | true => exact s.setIp_fault v
  | false => rfl

/-- Every instruction computes a sound answer first, and only then takes the exception that it may hold (R170, R176). -/
theorem exec_eq_orRaise (i : Instr) (s : State) : ∃ r, exec i s = s.orRaise r ∧ AnswerSound s i r := by
  cases i with
  | add f | sub f | mul f | and f | or f | xor f | not f | cmp f | hlt | asgn f | asgnh f | asgnl f =>
    exact ⟨.ok (s.writeReg _ _), rfl, s.writeReg_fault _ _⟩
  | div f => exact ⟨_, exec_div f s, .map instrRaises_div (s.writeReg_fault f.rd)⟩
  | shr f => exact ⟨_, exec_shr f s, .map instrRaises_shr (s.writeReg_fault f.rd)⟩
  | shl f => exact ⟨_, exec_shl f s, .map instrRaises_shl (s.writeReg_fault f.rd)⟩
  | xchg f =>
    by_cases hf : f.r1 = f.r2
    · exact ⟨.ok s, exec_xchg_of_eq hf s, rfl⟩
    · exact ⟨.ok _, exec_xchg_of_ne hf s, by simp [AnswerSound]⟩
  | inc o | dec o =>
    exact ⟨_, rfl, .map (instrRaises_of_writeBackReg_error (by simp [writeBackInstrs])) fun reg => s.writeReg_fault reg _⟩
  | jmp o | jr o | je o | jne o | ja o | jae o | jb o | jbe o =>
    exact ⟨_, rfl, .map (instrRaises_of_resolve_error (by simp [unaryInstrs, UnaryOp.all, UnaryOp.instr]))
      (s.fault_jumpTarget _)⟩
  | call o =>
    refine ⟨_, rfl, .bind (instrRaises_of_resolve_error (instr_mem_unaryInstrs .call o)) fun v _ =>
      .bind (State.instrRaises_of_push_error rfl) fun u hu => ?_⟩
    exact (u.setIp_fault v).trans (State.fault_of_push hu)
  | push o =>
    refine ⟨_, rfl, .bind (instrRaises_of_resolve_error (instr_mem_unaryInstrs .push o)) fun v _ => ?_⟩
    cases hpush : s.push s.cfg.pushBytes v with
    | ok u => exact State.fault_of_push hpush
    | error e => exact State.instrRaises_of_push_error rfl hpush
  | pop o =>
    refine ⟨_, rfl, .bind (instrRaises_of_writeBackReg_error (by simp [writeBackInstrs])) fun reg _ =>
      .bind (State.instrRaises_of_pop_error rfl) fun p hp => ?_⟩
    exact (p.2.writeReg_fault reg p.1).trans (State.fault_of_pop hp)
  | ret =>
    refine ⟨_, rfl, .bind (State.instrRaises_of_pop_error rfl) fun p hp => ?_⟩
    exact (p.2.setIp_fault p.1).trans (State.fault_of_pop hp)

theorem exec_raises_or_keeps_fault {i : Instr} {s t : State} (h : exec i s = .next t) :
    (∃ e, InstrRaises s i e ∧ t = s.raise e) ∨ t.fault = s.fault := by
  obtain ⟨r, hexec, hsound⟩ := exec_eq_orRaise i s
  obtain rfl | ⟨e, rfl, rfl⟩ := State.orRaise_cases (hexec.symm.trans h)
  · exact .inr hsound
  · exact .inl ⟨e, hsound, rfl⟩

theorem exec_answers_next (i : Instr) (s : State) : ∃ t, exec i s = .next t := by
  obtain ⟨r, hexec, -⟩ := exec_eq_orRaise i s
  cases r with
  | ok t => exact ⟨t, hexec⟩
  | error e => exact ⟨s.raise e, hexec⟩

/-! ### The cycle (R151, R152) -/

theorem State.stopped_eq_false_iff {s : State} : s.stopped = false ↔ s.halt = false ∧ s.fault = none := by
  simp [State.stopped]

theorem State.stopped_eq_true_iff {s : State} : s.stopped = true ↔ s.halt = true ∨ s.fault ≠ none := by
  simp [State.stopped, Option.isSome_iff_ne_none]

/-- Steps 3 to 6 of the cycle, of a machine that is not stopped and finds a word. -/
theorem step_of_fetch {s : State} {w : Word} (hs : s.stopped = false) (hw : s.fetch = some w) :
    step s = s.advance.decodeAndExecute w := by
  simp [step, cycle, hs, hw]

theorem step_of_fetch_eq_none {s : State} (hs : s.stopped = false) (hw : s.fetch = none) :
    step s = .next (s.raise (.fetchOutOfRange s.ip)) := by
  simp [step, cycle, hs, hw]

theorem State.decodeAndExecute_of_ok {s : State} {w : Word} {i : Instr} (h : decode s.cfg.optable w = .ok i) :
    s.decodeAndExecute w = exec i s := by
  simp [State.decodeAndExecute, h]

theorem State.decodeAndExecute_of_error {s : State} {w : Word} {r : DecodeReject}
    (h : decode s.cfg.optable w = .error r) : s.decodeAndExecute w = .next (s.raise (rejectException r)) := by
  simp [State.decodeAndExecute, h]

theorem step_answers_next (s : State) : ∃ t, step s = .next t := by
  cases hs : s.stopped with
  | true => exact ⟨s, step_of_stopped hs⟩
  | false =>
    cases hw : s.fetch with
    | none => exact ⟨_, step_of_fetch_eq_none hs hw⟩
    | some w =>
      rw [step_of_fetch hs hw]
      cases hd : decode s.advance.cfg.optable w with
      | ok i => rw [State.decodeAndExecute_of_ok hd]; exact exec_answers_next i s.advance
      | error r => exact ⟨_, State.decodeAndExecute_of_error hd⟩

/-- Settles O13: the word fetched is the one at the instruction pointer, and the increment does not change the table. -/
theorem stepRunsDecodedInstruction : Obligations.StepRunsDecodedInstruction := by
  intro s w i hhalt hfault hw hd
  calc step s = s.advance.decodeAndExecute w := step_of_fetch (State.stopped_eq_false_iff.2 ⟨hhalt, hfault⟩) hw
    _ = exec i s.advance := State.decodeAndExecute_of_ok (s.advance_cfg.symm ▸ hd)

/-- A step at a word that is rejected takes the exception of the rejection, with the IP increment made. -/
theorem step_takesException_of_reject {s : State} {w : Word} {r : DecodeReject} (hs : s.stopped = false)
    (hw : s.fetch = some w) (hd : decode s.cfg.optable w = .error r) :
    ∃ t, step s = .next t ∧ TakesException s.advance t (rejectException r) :=
  ⟨_, (step_of_fetch hs hw).trans (State.decodeAndExecute_of_error (s.advance_cfg.symm ▸ hd)), takesException_raise _ _⟩

/-- Settles O14: the decoder rejects the word by the name that its two codes call for. -/
theorem stepAtUndefinedWordRaises : Obligations.StepAtUndefinedWordRaises := by
  intro s w hhalt hfault hw
  have hs := State.stopped_eq_false_iff.2 ⟨hhalt, hfault⟩
  obtain ⟨hformat, hoperation⟩ := rejectedWordsByName s.cfg.optable w
  exact ⟨fun hbad => step_takesException_of_reject hs hw (hformat hbad),
    fun hfmt hcode => step_takesException_of_reject hs hw ((hoperation hfmt).2 hcode)⟩

/-! ### The latch tells the truth (R171, R176) -/

/-- What an instruction raises depends on registers, stack and parameters alone. -/
theorem InstrRaises.congr {s t : State} {i : Instr} {e : Exception} (h : InstrRaises s i e)
    (hregs : ∀ j, t.readReg j = s.readReg j) (hstack : t.stack = s.stack) (hcfg : t.cfg = s.cfg) :
    InstrRaises t i e := by
  cases e with
  | undefinedOperation fmt op | undefinedFormat fmt | fetchOutOfRange ip => exact h.elim
  | unsupportedAddressing reg | reservedAddressingMode | operandNotWritable => exact h
  | divideByZero | shiftOutOfRange amount | stackUnderflow len | stackOverflow len =>
    simpa only [InstrRaises, shlAmount, hregs, hstack, hcfg] using h

/-- The causes that instructions raise have no other condition than that the last word raised them. -/
theorem RaisedByInstr.causeHolds {s : State} {e : Exception} (h : RaisedByInstr s e) : CauseHolds s e := by
  cases e with
  | undefinedOperation fmt op | undefinedFormat fmt | fetchOutOfRange ip =>
    obtain ⟨w, i, -, -, hraises⟩ := h
    exact hraises.elim
  | _ => exact h

theorem State.halt_advance (s : State) : s.advance.halt = s.halt :=
  congrArg (·.getLsbD haltBit) (s.readReg_writeReg_ne (by decide) _)

/-- The entry keeps the operands that the instruction found, so they still raise the cause. -/
theorem raisedByInstr_advance_raise {s : State} {w : Word} {i : Instr} {e : Exception} (hhalt : s.halt = false)
    (hw : s.fetch = some w) (hd : decode s.cfg.optable w = .ok i) (h : InstrRaises s.advance i e) :
    RaisedByInstr (s.advance.raise e) e := by
  refine ⟨w, i, (s.lastWord_advance_raise e).trans hw, by simpa using hd, h.congr ?_ (by simp) (by simp)⟩
  exact State.readReg_beforeEntry_raise (s.halt_advance.trans hhalt) e

/-- A rejected word has the codes recorded, and the table does not hold them (R78, R79). -/
theorem causeHolds_rejectException {s : State} {w : Word} {r : DecodeReject} (hw : s.fetch = some w)
    (hd : decode s.cfg.optable w = .error r) :
    CauseHolds (s.advance.raise (rejectException r)) (rejectException r) := by
  have hlast : ∀ e, (s.advance.raise e).lastWord = some w := fun e => (s.lastWord_advance_raise e).trans hw
  obtain ⟨hformat, hoperation⟩ := rejectedWordsByName s.cfg.optable w
  by_cases hfmt : (w.extractLsb' 61 3).toNat ≤ 4
  · obtain ⟨hheld, hreject⟩ := hoperation hfmt
    have hcode : holdsCode s.cfg.optable (w.extractLsb' 61 3) (w.extractLsb' 56 5) = false := by
      rw [← Bool.not_eq_true, ← hheld, hd]
      simp
    cases (hreject hcode).symm.trans hd
    exact ⟨hfmt, by simpa using hcode, w, hlast _, rfl, rfl⟩
  · have hbad : 5 ≤ (w.extractLsb' 61 3).toNat := by omega
    cases (hformat hbad).symm.trans hd
    exact ⟨hbad, w, hlast _, rfl⟩

/-- An entry into an empty latch leaves it truthful if the cause holds after it. -/
theorem latchSound_raise {s : State} {e : Exception} (hfault : s.fault = none) (h : CauseHolds (s.raise e) e) :
    LatchSound (s.raise e) := by
  intro e' he'
  obtain rfl : e = e' := by simpa [hfault] using he'
  exact ⟨h, by simp⟩

/-- Settles O22: a stopped machine keeps its latch, and a running one has an empty latch, which a cycle leaves empty or fills
with a cause that the word it fetched has given. -/
theorem stepKeepsLatchSound : Obligations.StepKeepsLatchSound := by
  intro s t hlatch hstep
  obtain ⟨-, rfl⟩ | ⟨hs, hw, rfl⟩ | ⟨w, i, hs, hw, hd, hexec⟩ | ⟨w, r, hs, hw, hd, rfl⟩ := cycle_cases hstep
  · exact hlatch
  · obtain ⟨-, hfault⟩ := State.stopped_eq_false_iff.1 hs
    refine latchSound_raise hfault ⟨(s.readReg_raise_ne _ (by decide)).symm, ?_⟩
    simpa [State.fetch, State.imageWord] using hw
  · obtain ⟨hhalt, hfault⟩ := State.stopped_eq_false_iff.1 hs
    obtain ⟨e, hraises, rfl⟩ | hkept := exec_raises_or_keeps_fault hexec
    · exact latchSound_raise (s.advance_fault.trans hfault) (raisedByInstr_advance_raise hhalt hw hd hraises).causeHolds
    · exact latchSound_of_fault_eq_none (hkept.trans (s.advance_fault.trans hfault))
  · obtain ⟨-, hfault⟩ := State.stopped_eq_false_iff.1 hs
    exact latchSound_raise (s.advance_fault.trans hfault) (causeHolds_rejectException hw hd)

/-! ### The run states (R157, R158) -/

section

variable {s : State}

theorem State.runState_of_fault (h : s.fault ≠ none) : s.runState = .fault :=
  if_pos (Option.isSome_iff_ne_none.2 h)

theorem State.runState_of_ended (hfault : s.fault = none) (hhalt : s.halt = false)
    (hip : s.image.length ≤ s.ip.toNat) : s.runState = .ended := by
  simp [State.runState, hfault, hhalt, hip]

theorem State.runState_of_run (hfault : s.fault = none) (hhalt : s.halt = false)
    (hip : s.ip.toNat < s.image.length) : s.runState = .run := by
  simp [State.runState, hfault, hhalt, hip]

end

/-- Settles O16: each state meets one of the four conditions, which exclude each other, and has the run state it names. -/
theorem runStatesClassified : Obligations.RunStatesClassified := by
  intro s
  by_cases hfault : s.fault = none
  · cases hhalt : s.halt with
    | true => simp [State.runState_of_halt hfault hhalt, hfault]
    | false =>
      by_cases hip : s.image.length ≤ s.ip.toNat
      · simp [State.runState_of_ended hfault hhalt hip, hfault, hip]
      · have hlt := Nat.not_le.1 hip
        simp [State.runState_of_run hfault hhalt hlt, hfault, hlt]
  · simp [State.runState_of_fault hfault, hfault]

theorem State.stopped_of_runState {s : State} (h : s.runState = .fault ∨ s.runState = .halted) : s.stopped = true := by
  obtain ⟨hfault, hhalted, -, -⟩ := runStatesClassified s
  obtain h | h := h
  · exact State.stopped_eq_true_iff.2 (.inr (hfault.1 h))
  · exact State.stopped_of_halt (hhalted.1 h).2

theorem cycleReport_of_stopped {s : State} (h : s.stopped = true) : cycleReport s = none := if_pos h

theorem cycleReport_of_step {s t : State} (hs : s.stopped = false) (h : step s = .next t) :
    cycleReport s = some t.dump := by
  have hcycle : cycle s = .next t := h
  simp [cycleReport, hs, hcycle]

/-- After a reset the instruction pointer is 0, so the bound is met exactly if the image is empty. -/
theorem State.runState_reinit (s : State) : s.reinit.runState = if s.image = [] then .ended else .run := by
  have hip : s.reinit.ip = 0#64 := s.readReg_reinit ipSlot
  have hhalt : s.reinit.halt = false := s.flag_reinit haltBit
  split
  · next himage => exact State.runState_of_ended s.reinit_fault hhalt (by simp [himage])
  · next himage => exact State.runState_of_run s.reinit_fault hhalt (by simpa [hip, List.length_pos_iff] using himage)

/-- Settles O15: a cycle that is not stopped reports its next state, whose own latch, flag and bound name its run state. -/
theorem runStateTransitions : Obligations.RunStateTransitions := by
  refine ⟨fun s hrun => ?_, fun s h => ?_, fun s hended => ?_, State.runState_reinit⟩
  · obtain ⟨-, -, -, hiff⟩ := runStatesClassified s
    obtain ⟨hfault, hhalt, -⟩ := hiff.1 hrun
    obtain ⟨t, ht⟩ := step_answers_next s
    exact ⟨t, ht, cycleReport_of_step (State.stopped_eq_false_iff.2 ⟨hhalt, hfault⟩) ht, State.runState_of_fault,
      State.runState_of_halt, State.runState_of_ended, State.runState_of_run⟩
  · have hs := State.stopped_of_runState h
    exact ⟨step_of_stopped hs, cycleReport_of_stopped hs⟩
  · obtain ⟨-, -, hiff, -⟩ := runStatesClassified s
    obtain ⟨hfault, hhalt, hip⟩ := hiff.1 hended
    have hs := State.stopped_eq_false_iff.2 ⟨hhalt, hfault⟩
    have ht := step_of_fetch_eq_none hs (List.getElem?_eq_none hip)
    exact ⟨_, ht, cycleReport_of_step hs ht, takesException_raise s _, State.runState_of_fault (by simp),
      s.readReg_raise_ne _ (by decide)⟩

/-! ### Runs of several cycles (R160 to R162) -/

theorem run_succ_of_next {M : Host.Core} {s t : M.State} (h : M.step s = .next t) (n : Nat) :
    M.run (n + 1) s = M.run n t := by
  rw [Host.Core.run, h]

/-- One cycle, then the others. -/
theorem run_succ_of_step {s t : State} (h : step s = .next t) (n : Nat) :
    Host.Core.run core (n + 1) s = Host.Core.run core n t := run_succ_of_next (M := core) h n

/-- Settles O17: each cycle of a stopped machine answers the same state. -/
theorem stoppedMachineStaysStopped : Obligations.StoppedMachineStaysStopped := by
  intro n s h
  induction n with
  | zero => rfl
  | succ n ih => exact (run_succ_of_step (step_of_stopped (State.stopped_eq_true_iff.2 h)) n).trans ih

/-- The machine is in RUN before each of its first `n` cycles. -/
def StaysInRun (n : Nat) (s : State) : Prop :=
  ∀ m, m < n → ∃ u, Host.Core.run core m s = .next u ∧ u.runState = .run

theorem staysInRun_succ_iff {s t : State} (h : step s = .next t) (n : Nat) :
    StaysInRun (n + 1) s ↔ s.runState = .run ∧ StaysInRun n t := by
  constructor
  · intro hstays
    refine ⟨?_, fun m hm => ?_⟩
    · obtain ⟨u, hu, hrun⟩ := hstays 0 n.succ_pos
      cases hu
      exact hrun
    · exact run_succ_of_step h m ▸ hstays (m + 1) (Nat.succ_lt_succ hm)
  · rintro ⟨hrun, hstays⟩ m hm
    cases m with
    | zero => exact ⟨s, rfl, hrun⟩
    | succ m =>
      rw [run_succ_of_step h]
      exact hstays m (Nat.lt_of_succ_lt_succ hm)

theorem runLoop_succ_of_step {s t : State} (hrun : s.runState = .run) (h : step s = .next t) (fuel : Nat) :
    runLoop (fuel + 1) s = runLoop fuel t := by
  have hcycle : cycle s = .next t := h
  rw [runLoop, if_pos hrun, hcycle]

/-- Outside RUN the state itself is the first of the run that is not RUN. -/
theorem first_stop_of_ne_run {fuel : Nat} {s t : State} (hs : s.runState ≠ .run) (h : runLoop fuel s = some t) :
    t.runState ≠ .run ∧ ∃ n, n ≤ fuel ∧ Host.Core.run core n s = .next t ∧ StaysInRun n s := by
  cases (runLoop_of_ne_run hs fuel).symm.trans h
  exact ⟨hs, 0, fuel.zero_le, rfl, fun m hm => absurd hm m.not_lt_zero⟩

/-- What the loop answers is the first state of the run that is not RUN. -/
theorem first_stop_of_runLoop {fuel : Nat} {s t : State} (h : runLoop fuel s = some t) :
    t.runState ≠ .run ∧ ∃ n, n ≤ fuel ∧ Host.Core.run core n s = .next t ∧ StaysInRun n s := by
  induction fuel generalizing s with
  | zero =>
    by_cases hs : s.runState = .run
    · cases (if_pos hs).symm.trans h
    · exact first_stop_of_ne_run hs h
  | succ fuel ih =>
    by_cases hs : s.runState = .run
    · obtain ⟨u, hu⟩ := step_answers_next s
      rw [runLoop_succ_of_step hs hu] at h
      obtain ⟨hstop, n, hn, hrun, hstays⟩ := ih h
      exact ⟨hstop, n + 1, Nat.succ_le_succ hn, (run_succ_of_step hu n).trans hrun,
        (staysInRun_succ_iff hu n).2 ⟨hs, hstays⟩⟩
    · exact first_stop_of_ne_run hs h

/-- The first state of the run that is not RUN is what the loop answers, with fuel for as many cycles. -/
theorem runLoop_of_first_stop {n fuel : Nat} {s t : State} (hrun : Host.Core.run core n s = .next t)
    (hstop : t.runState ≠ .run) (hstays : StaysInRun n s) (hn : n ≤ fuel) : runLoop fuel s = some t := by
  induction n generalizing s fuel with
  | zero =>
    cases hrun
    exact runLoop_of_ne_run hstop fuel
  | succ n ih =>
    obtain ⟨u, hu⟩ := step_answers_next s
    obtain ⟨hs, hstays⟩ := (staysInRun_succ_iff hu n).1 hstays
    obtain ⟨fuel, rfl⟩ := Nat.exists_eq_add_one_of_ne_zero (Nat.ne_zero_of_lt hn)
    rw [runLoop_succ_of_step hs hu]
    exact ih ((run_succ_of_step hu n).symm.trans hrun) hstays (Nat.le_of_succ_le_succ hn)

/-- Settles O18, by induction on the fuel and on the number of cycles. -/
theorem runLoopEndsAtFirstStop : Obligations.RunLoopEndsAtFirstStop :=
  ⟨fun _ _ _ => first_stop_of_runLoop, fun _ _ _ _ => runLoop_of_first_stop⟩

end Sys2Proof.Machine

/-! ## Exceptions: codes, exception entry, and that nothing else stops the machine (O19, O23, O24) -/

namespace Sys2Proof.Machine

/-- Settles O19: an instruction answers a state or an exception that is taken, and so does each stage of the cycle. -/
theorem everyStepAnswersNext : Obligations.EveryStepAnswersNext := ⟨step_answers_next, exec_answers_next⟩

/-- Settles O24: the latch, the flag bits, the other registers and the two memories, each by its rule for `raise`. -/
theorem exceptionEntryChangesLatchAndHalt : Obligations.ExceptionEntryChangesLatchAndHalt := takesException_raise

/-- Settles O23: each row of R171's table is one case of `Exception.code` and of `Exception.info`. -/
theorem causeCodesAndInfo : Obligations.CauseCodesAndInfo := by
  refine ⟨fun fmt op => ?undefinedOperation, fun fmt => ?undefinedFormat, fun reg => ?unsupportedAddressing,
    ?reservedAddressingMode, ?operandNotWritable, ?divideByZero, fun n => ?shiftOutOfRange, fun n => ?stackUnderflow,
    fun n => ?stackOverflow, fun ip => ?fetchOutOfRange⟩
  all_goals exact ⟨rfl, rfl⟩

end Sys2Proof.Machine
